-- ==== Sys2Proof/Word.lean ====
section
/-! DEFINITION. The word types of ESTIM-CORE: 64-bit registers (10_state.md section 1) and bytes. -/

namespace Sys2Proof

/-- A 64-bit register value, operand or command word (10_state.md section 1, R16). -/
abbrev Word := BitVec 64

/-- Eight consecutive store bits, or one byte of a bus transfer (R52). -/
abbrev Byte := BitVec 8

end Sys2Proof
end

