-- ==== Sys2Proof/Config.lean ====
section
/-! DEFINITION. The implementation parameters of 00_scope.md section 4 and R52, and the free values.

`Params` is the plain-data part: the state carries it, so every statement about all states is a statement
about all parameter values.  `Config.*` gives the instance that `State.reset` starts with: the value of the
spec where the spec gives a default, an `opaque` constant with no body where it says OPEN. -/

namespace Sys2Proof

/-- `B`, the width in bits of one storage block: 8, 16, 32 or 64 (R10). -/
inductive BlockWidth where
  | w8
  | w16
  | w32
  | w64
  deriving DecidableEq, Repr

/-- `SIZING_MODE` (R17, R143): the arithmetic of the two sizing formulas. -/
inductive SizingMode where
  | exact
  | binary64Recip
  | binary64Div
  deriving DecidableEq, Repr

/-- `HOST_BYTE_ORDER` (R52): the byte order of a register word on a byte-addressed bus.  The spec lists no values of
this OPEN parameter; that it is one of these two, and no mixed order, is the model's choice (DESIGN CHOICE, unsafe on a
platform with another order; log 19). -/
inductive ByteOrder where
  | little
  | big
  deriving DecidableEq, Repr, Inhabited

/-- The parameters of one instance of the block that are plain data. -/
structure Params where
  /-- `B` (R10). -/
  blockWidth : BlockWidth
  /-- `MAX_CAPACITY_BITS` (R15). -/
  maxCapacityBits : Word
  /-- `HF_SEED_BASE` (R13). -/
  hfSeedBase : Word
  /-- `GOLDEN` (R14). -/
  golden : Word
  /-- `SIZING_MODE` (R17). -/
  sizingMode : SizingMode
  /-- `REG_BASE` (R52), a byte address of the platform. -/
  regBase : Nat
  /-- `HOST_BYTE_ORDER` (R52). -/
  hostByteOrder : ByteOrder
  deriving DecidableEq, Repr

/-- `MIX` (R12): the external mixer, an uninterpreted function.  OPEN. -/
opaque Config.mix : Word → Word

/-- `MAX_CAPACITY_BITS` (R15) before the constraint `1 <= MAX_CAPACITY_BITS`.  OPEN. -/
opaque Config.maxCapacityRaw : Word

/-- `MAX_CAPACITY_BITS` (R15): any value of `1 .. 2^64 - 1`. -/
def Config.maxCapacityBits : Word :=
  if Config.maxCapacityRaw = 0 then 1 else Config.maxCapacityRaw

/-- `HF_SEED_BASE` (R13).  OPEN. -/
opaque Config.hfSeedBase : Word

/-- `GOLDEN` (R14) before the constraint that it is odd.  OPEN. -/
opaque Config.goldenRaw : Word

/-- `GOLDEN` (R14): any odd 64-bit value. -/
def Config.golden : Word := Config.goldenRaw ||| 1

/-- `REG_BASE / 8` (R52).  OPEN. -/
opaque Config.regBaseWords : Nat

/-- `REG_BASE` (R52): naturally aligned register words put it at a multiple of 8 (DEDUCED, log 6). -/
def Config.regBase : Nat := 8 * Config.regBaseWords

/-- `HOST_BYTE_ORDER` (R52).  OPEN, among the two orders the model allows (log 19). -/
opaque Config.hostByteOrder : ByteOrder

/-- `LN64` (R17, R143) before the constraint that it is a logarithm.  OPEN. -/
opaque Config.ln64Raw : Word → Word

/-- `x` forced into `lo .. hi`; every value of that range is its own image. -/
def Config.clamp (lo hi x : Word) : Word :=
  if x < lo then lo else if hi < x then hi else x

/-- `LN64` (R143): any function from binary64 patterns to binary64 patterns that is a binary64 logarithm to
within a factor of two: `LN64(2.0)` is in `[0.5, 0.75]`, and on a pattern of the open interval (0, 1) it is
negative with magnitude in `[2^-54, 1024]` (DEDUCED, log 5). -/
def Config.ln64 (x : Word) : Word :=
  if x = 0x4000000000000000 then
    Config.clamp 0x3FE0000000000000 0x3FE8000000000000 (Config.ln64Raw x)
  else
    0x8000000000000000 ||| Config.clamp 0x3C90000000000000 0x4090000000000000 (Config.ln64Raw x)

/-- The content of store byte `a` after reset number `epoch` and before anything wrote it: unspecified (R42,
R212), so a free value (log 1). -/
opaque Config.freeByte : (epoch : Nat) → (a : Nat) → Byte

/-- The instance `State.reset` starts with: `B = 64` and `SIZING_MODE = EXACT` are the spec's defaults
(R10, R17); every other entry is OPEN. -/
def Config.params : Params where
  blockWidth := .w64
  maxCapacityBits := Config.maxCapacityBits
  hfSeedBase := Config.hfSeedBase
  golden := Config.golden
  sizingMode := .exact
  regBase := Config.regBase
  hostByteOrder := Config.hostByteOrder

end Sys2Proof
end

