-- ==== Sys2Proof/Syntax.lean ====
section
/-! DEFINITION. The ten commands of the opcode map (30_encoding.md R74) and the encoding formats (R71, R72). -/

namespace Sys2Proof

/-- One constructor per row of R74; the only immediate is `V`, carried by the two format-V commands (R75). -/
inductive Instr where
  | vinit
  | vget
  | vset (value : Bool)
  | vgetf
  | vsetf
  | vfill (value : Bool)
  | binit
  | bins
  | blook
  | bsize
  deriving DecidableEq, Repr

/-- The two encoding formats: N has no immediate (R71), V has the one-bit immediate `c[8]` (R72). -/
inductive Format where
  | n
  | v
  deriving DecidableEq, Repr

end Sys2Proof
end

