-- ==== Sys2Proof/WellFormed.lean ====
section
/-! DEFINITION. What is well formed: instructions, command words (30_encoding.md R73) and parameters
(00_scope.md R10 to R17, 20_memory.md R52). -/

namespace Sys2Proof

/-- Every term of `Instr` is a command of R74: its one operand is the one-bit `V`, and both values are legal
(R72), so the syntax has no ill-formed term. -/
def Instr.wf (i : Instr) : Bool :=
  match i with
  | .vinit | .vget | .vset _ | .vgetf | .vsetf | .vfill _ | .binit | .bins | .blook | .bsize => true

/-- R73, first condition: `c[63:9] = 0`. -/
def reservedBitsZero (c : Word) : Bool := c.extractLsb' 9 55 == 0

/-- The format of the opcode `op`, none where R74 lists no command. -/
def opcodeFormat (op : BitVec 8) : Option Format :=
  match op.toNat with
  | 0x01 | 0x02 | 0x04 | 0x05 | 0x11 | 0x12 | 0x13 | 0x14 => some .n
  | 0x03 | 0x06 => some .v
  | _ => none

/-- R73, second condition: OP is one of the ten opcodes. -/
def opcodeKnown (c : Word) : Bool := (opcodeFormat (c.extractLsb' 0 8)).isSome

/-- R73, third condition: a format-N opcode comes with `c[8] = 0`. -/
def immediateAllowed (c : Word) : Bool :=
  !(opcodeFormat (c.extractLsb' 0 8) == some .n && c.getLsbD 8)

/-- The legal command words of R73. -/
def commandWordWf (c : Word) : Bool :=
  reservedBitsZero c && opcodeKnown c && immediateAllowed c

/-- R15: `1 <= MAX_CAPACITY_BITS`. -/
def Params.maxCapacityPositive (p : Params) : Bool := p.maxCapacityBits != 0

/-- R14: `GOLDEN` is odd. -/
def Params.goldenOdd (p : Params) : Bool := p.golden.getLsbD 0

/-- R52: the register words are naturally aligned. -/
def Params.regBaseAligned (p : Params) : Bool := p.regBase % 8 == 0

/-- The constraints the spec puts on the parameters (`B` is legal by its type). -/
def Params.wf (p : Params) : Bool :=
  p.maxCapacityPositive && p.goldenOdd && p.regBaseAligned

end Sys2Proof
end

