-- ==== Sys2Proof/Decode.lean ====
section
/-! DEFINITION. The command word: its fields, the decoder (total, rejecting by name), the encoder and the
opcode table (30_encoding.md R70 to R75). -/

namespace Sys2Proof

/-- Why a command word is illegal, in the three cases of R73. -/
inductive DecodeError where
  | reservedBits
  | unknownOpcode
  | immediateOnFormatN
  deriving DecidableEq, Repr

/-- `OP = c[7:0]` (R70). -/
def opField (c : Word) : BitVec 8 := c.extractLsb' 0 8

/-- `V = c[8]` (R70). -/
def vField (c : Word) : Bool := c.getLsbD 8

/-- `RSV = c[63:9]` (R70). -/
def rsvField (c : Word) : BitVec 55 := c.extractLsb' 9 55

/-- A format-N command: `V` must be 0 (R71, R73). -/
def formatN (v : Bool) (i : Instr) : Except DecodeError Instr :=
  if v then .error .immediateOnFormatN else .ok i

/-- The opcode map of R74 on the fields OP and V. -/
def decodeFields (op : BitVec 8) (v : Bool) : Except DecodeError Instr :=
  match op.toNat with
  | 0x01 => formatN v .vinit
  | 0x02 => formatN v .vget
  | 0x03 => .ok (.vset v)
  | 0x04 => formatN v .vgetf
  | 0x05 => formatN v .vsetf
  | 0x06 => .ok (.vfill v)
  | 0x11 => formatN v .binit
  | 0x12 => formatN v .bins
  | 0x13 => formatN v .blook
  | 0x14 => formatN v .bsize
  | _ => .error .unknownOpcode

/-- The decoder: total on 64-bit words (R73). -/
def decode (c : Word) : Except DecodeError Instr :=
  if rsvField c = 0 then decodeFields (opField c) (vField c) else .error .reservedBits

/-- The OP value of a command (R74). -/
def Instr.opcode : Instr → BitVec 8
  | .vinit => 0x01
  | .vget => 0x02
  | .vset _ => 0x03
  | .vgetf => 0x04
  | .vsetf => 0x05
  | .vfill _ => 0x06
  | .binit => 0x11
  | .bins => 0x12
  | .blook => 0x13
  | .bsize => 0x14

/-- The V bit of a command: 0 for format N (R71), the operand for format V (R72). -/
def Instr.vBit : Instr → Bool
  | .vset v | .vfill v => v
  | .vinit | .vget | .vgetf | .vsetf | .binit | .bins | .blook | .bsize => false

/-- The command word of a command: `zext_64(OP)`, with `0x100` set where `V = 1` (R71, R72). -/
def encode (i : Instr) : Word :=
  i.opcode.setWidth 64 ||| (if i.vBit then 0x100 else 0)

/-- One row of the machine-readable opcode map, spec/opcode_table.json. -/
structure OpcodeRow where
  mnemonic : String
  pattern : Word
  mask : Word
  deriving DecidableEq, Repr

/-- Does the row cover the word? -/
def OpcodeRow.covers (r : OpcodeRow) (c : Word) : Bool := c &&& r.mask == r.pattern

/-- The rows of spec/opcode_table.json, in its order. -/
def opcodeTable : List OpcodeRow :=
  [ ⟨"VINIT", 0x0000000000000001, 0xFFFFFFFFFFFFFFFF⟩,
    ⟨"VGET", 0x0000000000000002, 0xFFFFFFFFFFFFFFFF⟩,
    ⟨"VSET", 0x0000000000000003, 0xFFFFFFFFFFFFFEFF⟩,
    ⟨"VGETF", 0x0000000000000004, 0xFFFFFFFFFFFFFFFF⟩,
    ⟨"VSETF", 0x0000000000000005, 0xFFFFFFFFFFFFFFFF⟩,
    ⟨"VFILL", 0x0000000000000006, 0xFFFFFFFFFFFFFEFF⟩ ] ++
  [ ⟨"BINIT", 0x0000000000000011, 0xFFFFFFFFFFFFFFFF⟩,
    ⟨"BINS", 0x0000000000000012, 0xFFFFFFFFFFFFFFFF⟩,
    ⟨"BLOOK", 0x0000000000000013, 0xFFFFFFFFFFFFFFFF⟩,
    ⟨"BSIZE", 0x0000000000000014, 0xFFFFFFFFFFFFFFFF⟩ ]

/-- The row of the table an instruction is. -/
def Instr.mnemonic : Instr → String
  | .vinit => "VINIT"
  | .vget => "VGET"
  | .vset _ => "VSET"
  | .vgetf => "VGETF"
  | .vsetf => "VSETF"
  | .vfill _ => "VFILL"
  | .binit => "BINIT"
  | .bins => "BINS"
  | .blook => "BLOOK"
  | .bsize => "BSIZE"

/-- The instruction the decoder reads from a table word of `nbits` bits; bits from `nbits` upward are 0, and a
value that does not fit one 64-bit command word is refused (R79: every command is exactly one word). -/
def decodeTableWord (nbits w : Nat) : Option Instr :=
  if w % 2 ^ nbits < 2 ^ 64 then
    match decode (BitVec.ofNat 64 (w % 2 ^ nbits)) with
    | .ok i => some i
    | .error _ => none
  else none

end Sys2Proof
end

