-- ==== Sys2Proof/Machine/State.lean ====
section
/-! DEFINITION. The state of ESTIM-CORE (10_state.md), the host's accesses (60_exceptions.md R195), the reasons
a step can stop, and the state after reset (R42, R210). -/

namespace Sys2Proof.Machine

/-- MODE, STATUS[25:24] (R30); the value 3 is never produced and has no constructor. -/
inductive Mode where
  | none
  | vector
  | bloom
  deriving DecidableEq, Repr

/-- The fault codes of R181, raised by commands and recorded in STATUS.ERRCODE. -/
inductive FaultCode where
  | illegal
  | mode
  | index
  | length
  | population
  | errorRate
  | size
  deriving DecidableEq, Repr

/-- The assigned registers, numbers 0 to 10 (10_state.md section 1). -/
inductive Reg where
  | cfg
  | maxcap
  | cmd
  | status
  | arg0
  | arg1
  | arg2
  | result
  | result1
  | capacity
  | hashcount
  deriving DecidableEq, Repr

/-- One interaction of the host with the block (R195): a register access by number, an access through a
byte-addressed bus (R52), or the platform's reset (R210). -/
inductive HostAccess where
  | read (number : Nat)
  | write (number : Nat) (value : Word)
  | busRead (address size : Nat)
  | busWrite (address : Nat) (bytes : List Byte)
  | reset
  deriving DecidableEq, Repr

/-- What a host read gets back (R195, R81): a register word, or its bytes on a bus in address order (R52). -/
inductive Reply where
  | word (value : Word)
  | bytes (bytes : List Byte)
  deriving DecidableEq, Repr

/-- The bit store (R34), held in bytes: store bit `i` is bit `i % 8` of byte `i / 8`, which is bit `i % B` of
block `i / B` for every legal `B`.

`cells` lists bytes by strictly rising address.  A byte it does not list reads as 0 below `zeroed` (VINIT or
BINIT has zeroed it since the last reset) and as the free value `Config.freeByte epoch` from there on (R42).
`epoch` counts the resets; it is the model's own counter for the free values (log 1). -/
structure Memory where
  cells : List Host.Cell
  zeroed : Nat
  epoch : Nat
  deriving DecidableEq, Repr

/-- Everything the spec gives the machine (10_state.md), and the host's side of the port (R195). -/
structure State where
  /-- The instance's parameters; CFG (R23) and MAXCAP (R24) are read from them and nothing writes them. -/
  params : Params
  /-- STATUS.ERR (R26). -/
  err : Bool
  /-- STATUS.ERRCODE (R26). -/
  errCode : BitVec 8
  /-- STATUS.ERROP (R26). -/
  errOp : BitVec 8
  /-- STATUS.MODE (R30). -/
  mode : Mode
  /-- ARG0 (R28). -/
  arg0 : Word
  /-- ARG1 (R28). -/
  arg1 : Word
  /-- ARG2 (R28). -/
  arg2 : Word
  /-- RESULT (R29). -/
  result : Word
  /-- RESULT1 (R29). -/
  result1 : Word
  /-- CAPACITY (R31). -/
  capacity : Word
  /-- HASHCOUNT (R32). -/
  hashCount : Word
  /-- The bit store (R34, R35). -/
  store : Memory
  /-- The accesses the host (or hosts, interleaved: R59) will make, in the order they reach the port (R58). -/
  pending : List HostAccess
  /-- What the host's reads got back, oldest first (R81, R195). -/
  replies : List Reply
  deriving DecidableEq, Repr

/-- The reasons a step stops with a machine fault: there is none.  A fault of R181 is recorded in STATUS and the
block goes on (R182, R196), so it is a next state.  No constructor, so nothing raises one: safe. -/
inductive Fault where
  deriving DecidableEq, Repr

/-- The reasons a step is refused: the stuck accesses of R36, R52 and R195, each "no response (stuck)". -/
inductive Refusal where
  /-- Raised by `exec` for an instruction without a meaning.  No arm of this model raises it.  Safe: it stops. -/
  | notModelled (mnemonic : String)
  /-- Raised by a register read or write whose number is 11 or above (R36).  Safe: the machine has no step. -/
  | unassignedRegister (number : Nat)
  /-- Raised by a bus access that is not one naturally aligned 8-byte word (R52).  Safe: the machine has no step. -/
  | narrowOrMisaligned (address size : Nat)
  /-- Raised by a bus access below REG_BASE, which is no register of the block (R52, log 7).  Safe: it stops. -/
  | outsideRegisterFile (address : Nat)
  deriving DecidableEq, Repr

/-- The reset values of R42 for an instance with parameters `p`, with nothing asked of the port yet. -/
def State.resetWith (p : Params) : State where
  params := p
  err := false
  errCode := 0
  errOp := 0
  mode := .none
  arg0 := 0
  arg1 := 0
  arg2 := 0
  result := 0
  result1 := 0
  capacity := 0
  hashCount := 0
  store := { cells := [], zeroed := 0, epoch := 0 }
  pending := []
  replies := []

/-- The machine right after reset (R42, R210). -/
def State.reset : State := State.resetWith Config.params

end Sys2Proof.Machine
end

