-- ==== Sys2Proof/Machine/Flags.lean ====
section
/-! DEFINITION. The coded fields of STATUS and CFG: fault codes (60_exceptions.md R181), MODE numbers (10_state.md
R30), and the two words software reads whole (R23, R26). -/

namespace Sys2Proof.Machine

/-- The code of a fault in ERRCODE (R181). -/
def FaultCode.code : FaultCode → BitVec 8
  | .illegal => 1
  | .mode => 2
  | .index => 3
  | .length => 4
  | .population => 5
  | .errorRate => 6
  | .size => 7

/-- MODE as STATUS[25:24] shows it (R30). -/
def Mode.field : Mode → BitVec 2
  | .none => 0
  | .vector => 1
  | .bloom => 2

/-- The STATUS word (R26): ERR in bit 0, ERRCODE in 15:8, ERROP in 23:16, MODE in 25:24, every other bit 0. -/
def statusWord (s : State) : Word :=
  (BitVec.ofBool s.err).setWidth 64 |||
    (s.errCode.setWidth 64 <<< 8) |||
    (s.errOp.setWidth 64 <<< 16) |||
    (s.mode.field.setWidth 64 <<< 24)

/-- `B` in bits (R10). -/
def blockBits (w : BlockWidth) : Nat :=
  match w with
  | .w8 => 8
  | .w16 => 16
  | .w32 => 32
  | .w64 => 64

/-- The CFG word (R23): `B` in 7:0, `W = 64` in 15:8, the command-set version 1 in 23:16, every other bit 0. -/
def cfgWord (p : Params) : Word :=
  BitVec.ofNat 64 (blockBits p.blockWidth) ||| (64#64 <<< 8) ||| (1#64 <<< 16)

end Sys2Proof.Machine
end

