-- ==== Sys2Proof/Machine/Sizing.lean ====
section
/-! DEFINITION. The sizing unit (41_bloom.md section 1): the binary64 operand (30_encoding.md R77), the two formulas
in exact real arithmetic (R140) and in the two binary64 readings (R143). -/

namespace Sys2Proof.Machine

/-! ### The binary64 operand (R77) -/

/-- The biased exponent, bits 62:52 (R77). -/
def exponentField (w : Word) : Nat := (w.extractLsb' 52 11).toNat

/-- The fraction, bits 51:0 (R77). -/
def fractionField (w : Word) : Nat := (w.extractLsb' 0 52).toNat

/-- The integer significand: with the hidden bit for a normal number, without it for a subnormal one. -/
def significand (w : Word) : Nat :=
  if exponentField w = 0 then fractionField w else 2 ^ 52 + fractionField w

/-- The exact magnitude a finite pattern denotes: significand times `2^(e - 1075)`, with `e = 1` for a
subnormal. -/
def binary64Magnitude (w : Word) : Rat :=
  ((significand w * 2 ^ (max (exponentField w) 1) : Nat) : Rat) / ((2 ^ 1075 : Nat) : Rat)

/-- The exact real number a pattern denotes (R77); none for infinities and NaNs. -/
def binary64Value (w : Word) : Option Rat :=
  if exponentField w = 2047 then none
  else if w.getLsbD 63 then some (-binary64Magnitude w)
  else some (binary64Magnitude w)

/-- R77, R141: the pattern denotes a real of the open interval (0, 1). -/
def errorRateLegal (pb : Word) : Bool :=
  1 ≤ pb.toNat && pb.toNat ≤ 0x3FEFFFFFFFFFFFFF

/-! ### Exact arithmetic (R140)

`-ln(p)` and `ln(2)` are enclosed between rationals from the series `-ln(1 - u) = u + u^2/2 + u^3/3 + ...`, used
only with `0 < u <= 1/2`, where the tail after `k` terms is at most `1/2^k`.  `ceil` and `floor` are applied once. -/

/-- The sum of the first `k` terms `u^j / j`, and the next power `u^(k+1)`. -/
def logSeries (u : Rat) : Nat → Rat × Rat
  | 0 => (0, u)
  | k + 1 =>
    ((logSeries u k).1 + (logSeries u k).2 / ((k + 1 : Nat) : Rat), (logSeries u k).2 * u)

/-- A rational below `-ln(1 - u)`, from `k` terms.  Irreducible, so that no proof unrolls the series by accident. -/
@[irreducible] def logLower (k : Nat) (u : Rat) : Rat := (logSeries u k).1

/-- A rational above `-ln(1 - u)`, for `0 < u <= 1/2`. -/
def logUpper (k : Nat) (u : Rat) : Rat := logLower k u + 1 / ((2 ^ k : Nat) : Rat)

/-- A rational below `ln(2) = -ln(1 - 1/2)`. -/
def ln2Lower (k : Nat) : Rat := logLower k (1 / 2)

/-- A rational above `ln(2)`. -/
def ln2Upper (k : Nat) : Rat := logUpper k (1 / 2)

/-- The number of binary digits of the significand. -/
def significandLength (pb : Word) : Nat := Nat.log2 (significand pb) + 1

/-- `u` in `p = (1 - u) / 2^shift`, with `0 < u <= 1/2`. -/
def errorRateU (pb : Word) : Rat :=
  ((2 ^ significandLength pb - significand pb : Nat) : Rat) / ((2 ^ significandLength pb : Nat) : Rat)

/-- `shift` in `p = (1 - u) / 2^shift`, for a legal error rate. -/
def errorRateShift (pb : Word) : Nat :=
  1075 - max (exponentField pb) 1 - significandLength pb

/-- A rational below `-ln(p) = shift * ln(2) - ln(1 - u)`. -/
def negLnLower (k : Nat) (pb : Word) : Rat :=
  (errorRateShift pb : Rat) * ln2Lower k + logLower k (errorRateU pb)

/-- A rational above `-ln(p)`. -/
def negLnUpper (k : Nat) (pb : Word) : Rat :=
  (errorRateShift pb : Rat) * ln2Upper k + logUpper k (errorRateU pb)

/-- A rational below the real number `-ln(p) * n / ln(2)^2` of R140. -/
def sizeLower (k n : Nat) (pb : Word) : Rat := negLnLower k pb * (n : Rat) / (ln2Upper k * ln2Upper k)

/-- A rational above the real number `-ln(p) * n / ln(2)^2` of R140. -/
def sizeUpper (k n : Nat) (pb : Word) : Rat := negLnUpper k pb * (n : Rat) / (ln2Lower k * ln2Lower k)

/-- The enclosure from `k` terms settles the ceiling: both its ends have the same one. -/
def sizeDecided (k n : Nat) (pb : Word) : Bool := (sizeLower k n pb).ceil == (sizeUpper k n pb).ceil

/-- How many terms are taken first. -/
def logTerms : Nat := 320

/-- The ceiling from the first enclosure, of `k` terms or more, that settles it; none if no enclosure does, which is
so only where the real value is itself an integer.  The search has no bound, so it is a partial fixpoint: a total
function whose value is none where the search has no end. -/
def sizeSearch (n : Nat) (pb : Word) (k : Nat) : Option Int :=
  if sizeDecided k n pb then some (sizeLower k n pb).ceil else sizeSearch n pb (k + 1)
partial_fixpoint

/-- `sizeBits` in mode EXACT (R140): the ceiling of the exact real value, for every population and error rate.  The
enclosure of `logTerms` terms settles every input that is known; where it does not, a finer one does; where none does,
the real value is an integer, and the lower ends, which lie below it by less than 1, have it as their ceiling (log 4). -/
def exactSizeBits (n : Nat) (pb : Word) : Nat :=
  if sizeDecided logTerms n pb then (sizeLower logTerms n pb).ceil.toNat
  else
    match sizeSearch n pb (logTerms + 1) with
    | some size => size.toNat
    | none => (sizeLower logTerms n pb).ceil.toNat

/-- `hashCount` in mode EXACT (R140): the floor of `m * ln(2) / n`.  `ln2Lower` is so close to `ln(2)` that no
multiple `m * ln(2)` with `m < 2^64` has an integer between the two values. -/
def exactHashCount (m n : Nat) : Nat := ((m : Rat) * ln2Lower logTerms / (n : Rat)).floor.toNat

/-! ### Binary64 arithmetic (R143)

Every intermediate value is positive and far from the ends of the binary64 range (log 5), so an operation is the
exact rational result rounded to 53 significant bits, to nearest, ties to even. -/

/-- `2^e` for an integer `e`. -/
def twoPow (e : Int) : Rat :=
  match e with
  | .ofNat k => ((2 ^ k : Nat) : Rat)
  | .negSucc k => 1 / ((2 ^ (k + 1) : Nat) : Rat)

/-- The exponent `e` with `2^e <= q < 2^(e+1)`, for `q > 0`. -/
def binaryExponent (q : Rat) : Int :=
  let guess : Int := (Nat.log2 q.num.natAbs : Int) - (Nat.log2 q.den : Int)
  if q < twoPow guess then guess - 1 else guess

/-- The integer nearest to `q`, ties to even. -/
def roundHalfEven (q : Rat) : Int :=
  let below := q.floor
  let part := q - (below : Rat)
  if part < 1 / 2 then below
  else if 1 / 2 < part then below + 1
  else if below % 2 = 0 then below
  else below + 1

/-- The binary64 number nearest to `q > 0`, ties to even. -/
def roundBinary64 (q : Rat) : Rat :=
  let ulp := twoPow (binaryExponent q - 52)
  (roundHalfEven (q / ulp) : Rat) * ulp

/-- `sizeBits` of the form `ceil(-ln(p) * n * (1 / ln(2)^2))` (R143), left to right, from `-LN64(p)` and
`LN64(2)`. -/
def recipSizeBits (negLn ln2 : Rat) (n : Nat) : Nat :=
  let product := roundBinary64 (negLn * roundBinary64 (n : Rat))
  let square := roundBinary64 (ln2 * ln2)
  (roundBinary64 (product * roundBinary64 (1 / square))).ceil.toNat

/-- `sizeBits` of the form `ceil(-ln(p) * n / ln(2)^2)` (R143), left to right, from `-LN64(p)` and `LN64(2)`. -/
def divSizeBits (negLn ln2 : Rat) (n : Nat) : Nat :=
  let product := roundBinary64 (negLn * roundBinary64 (n : Rat))
  let square := roundBinary64 (ln2 * ln2)
  (roundBinary64 (product / square)).ceil.toNat

/-- `hashCount` of a binary64 mode (R143): `floor(m * ln(2) / n)`, left to right, from `LN64(2)`. -/
def binary64HashCount (ln2 : Rat) (m n : Nat) : Nat :=
  let product := roundBinary64 (roundBinary64 (m : Rat) * ln2)
  (roundBinary64 (product / roundBinary64 (n : Rat))).floor.toNat

/-- `-LN64(p)` as the exact real it denotes: LN64 is negative on (0, 1) (R143, log 5). -/
def ln64Negated (pb : Word) : Rat := binary64Magnitude (Config.ln64 pb)

/-- `LN64(2.0)` as the exact real it denotes (R143). -/
def ln64Two : Rat := binary64Magnitude (Config.ln64 0x4000000000000000)

/-! ### The sizing unit -/

/-- `sizeBits(n, p)` in the given SIZING_MODE (R140, R143). -/
def sizeBits (mode : SizingMode) (n : Nat) (pb : Word) : Nat :=
  match mode with
  | .exact => exactSizeBits n pb
  | .binary64Recip => recipSizeBits (ln64Negated pb) ln64Two n
  | .binary64Div => divSizeBits (ln64Negated pb) ln64Two n

/-- `hashCount(m, n)` in the given SIZING_MODE (R140, R143). -/
def sizedHashCount (mode : SizingMode) (m n : Nat) : Nat :=
  match mode with
  | .exact => exactHashCount m n
  | .binary64Recip => binary64HashCount ln64Two m n
  | .binary64Div => binary64HashCount ln64Two m n

end Sys2Proof.Machine
end

