-- ==== Sys2Proof/Machine/Operands.lean ====
section
/-! DEFINITION. The operands the commands take from ARG0 to ARG2 (30_encoding.md R76, R77) and the checks the rules
make on them (40_bitvector.md R103, R104; 41_bloom.md R141). -/

namespace Sys2Proof.Machine

/-- `bitIndex = x[ARG0]` (R76). -/
abbrev bitIndex (s : State) : Nat := s.arg0.toNat

/-- `capacityBits` or `populationSize`, `x[ARG0]` (R76). -/
abbrev sizeOperand (s : State) : Nat := s.arg0.toNat

/-- `cap = x[CAPACITY]` (R31, R35). -/
abbrev capacityBits (s : State) : Nat := s.capacity.toNat

/-- The effective field length `L = min(x[ARG1], 64)` (R103). -/
abbrev fieldLength (s : State) : Nat := min s.arg1.toNat 64

/-- `mask(n) = 2^n - 1`, all ones for `n = 64` (R19). -/
def mask (n : Nat) : Word := BitVec.ofNat 64 (2 ^ n - 1)

/-- The field value `x[ARG2] & mask(L)` (R106). -/
def fieldValue (s : State) : Word := s.arg2 &&& mask (fieldLength s)

/-- The index check of VGET and VSET (R101, R102): INDEX when `bitIndex >= capacityBits`. -/
def indexFault (s : State) : Option FaultCode :=
  if capacityBits s ≤ bitIndex s then some .index else none

/-- The field checks of VGETF and VSETF in the order of R104: LENGTH, then INDEX on the unbounded sum. -/
def fieldFault (s : State) : Option FaultCode :=
  if fieldLength s = 0 then some .length
  else if capacityBits s < bitIndex s + fieldLength s then some .index
  else none

/-- The sizing checks of BINIT and BSIZE in the order of R141: POPULATION, then ERRORRATE. -/
def sizingFault (s : State) : Option FaultCode :=
  if sizeOperand s = 0 then some .population
  else if errorRateLegal s.arg1 then none
  else some .errorRate

/-- `m = sizeBits(n, p)` on the operands of BINIT and BSIZE, in the instance's SIZING_MODE (R145, R149). -/
def filterSize (s : State) : Nat := sizeBits s.params.sizingMode (sizeOperand s) s.arg1

/-- `k = hashCount(m, n)` on the operands of BINIT and BSIZE (R145, R149). -/
def filterHashCount (s : State) : Nat :=
  sizedHashCount s.params.sizingMode (filterSize s) (sizeOperand s)

/-- `ceil(cap / B)`, the number of blocks a structure of `cap` bits uses (R35). -/
def blocksInUse (p : Params) (cap : Nat) : Nat :=
  (cap + (blockBits p.blockWidth - 1)) / blockBits p.blockWidth

/-- The bytes of the blocks a structure of `cap` bits uses, the padding of the last block included (R35). -/
def bytesInUse (p : Params) (cap : Nat) : Nat := blocksInUse p cap * (blockBits p.blockWidth / 8)

/-- Position number `hf` of hash `h` in a filter of `m` bits (R146), for a mixer and its two constants. -/
def bloomPosition (mix : Word → Word) (seedBase golden h : Word) (m hf : Nat) : Nat :=
  (mix (mix (seedBase + BitVec.ofNat 64 hf) + golden + h)).toNat % m

/-- `pos_hf(x[ARG0])` in the filter the state holds (R146 to R148). -/
def hashPosition (s : State) (hf : Nat) : Nat :=
  bloomPosition Config.mix s.params.hfSeedBase s.params.golden s.arg0 (capacityBits s) hf

end Sys2Proof.Machine
end

