-- ==== Sys2Proof/Machine/Ops.lean ====
section
/-! DEFINITION. The shared operations: the bit store in bytes and in bits (00_scope.md R20, 10_state.md R34), fault
entry and the clearing of a fault (60_exceptions.md R182, 10_state.md R27), and the command prologue (R180). -/

namespace Sys2Proof.Machine

/-! ### The store in bytes -/

/-- What an address the list does not name reads as: 0 where VINIT or BINIT has zeroed since the last reset, an
unspecified value elsewhere (R42, R100; log 1). -/
def Memory.unlisted (m : Memory) (a : Nat) : Byte :=
  if a < m.zeroed then 0 else Config.freeByte m.epoch a

/-- The byte a list of cells gives an address, if it lists it. -/
def lookupCell (a : Nat) : List Host.Cell → Option Byte
  | [] => none
  | c :: rest => if c.1 = a then some c.2 else lookupCell a rest

/-- The cell `(a, b)` put in front of the first cell whose address is not below `a`. -/
def insertCell (a : Nat) (b : Byte) : List Host.Cell → List Host.Cell
  | [] => [(a, b)]
  | c :: rest => if c.1 < a then c :: insertCell a b rest else (a, b) :: c :: rest

/-- Byte `a` of the store. -/
def Memory.readByte (m : Memory) (a : Nat) : Byte := (lookupCell a m.cells).getD (m.unlisted a)

/-- The store with byte `a` set to `b`; writing what the address reads as unlisted removes its entry. -/
def Memory.writeByte (m : Memory) (a : Nat) (b : Byte) : Memory :=
  let others := m.cells.filter fun c => c.1 ≠ a
  { m with cells := if b = m.unlisted a then others else insertCell a b others }

/-- The canonical form: addresses strictly rising, and no entry equal to what its address reads as unlisted. -/
def Memory.wf (m : Memory) : Bool :=
  decide (m.cells.Pairwise fun c d => c.1 < d.1) && m.cells.all fun c => c.2 != m.unlisted c.1

/-! ### The store in bits (R20, R34) -/

/-- Store bit `i` (R34). -/
def Memory.bit (m : Memory) (i : Nat) : Bool := (m.readByte (i / 8)).getLsbD (i % 8)

/-- A byte with bit `o` set to `v`. -/
def setByteBit (b : Byte) (o : Nat) (v : Bool) : Byte :=
  if v then b ||| (1#8 <<< o) else b &&& ~~~(1#8 <<< o)

/-- The store with bit `i` set to `v`: the byte is read, changed in that bit and written back (R102). -/
def Memory.setBit (m : Memory) (i : Nat) (v : Bool) : Memory :=
  m.writeByte (i / 8) (setByteBit (m.readByte (i / 8)) (i % 8) v)

/-- `MemRead(i, n)` (R20): the `n`-bit value whose bit `t` is store bit `i + t`. -/
def memRead (m : Memory) (i : Nat) : (n : Nat) → BitVec n
  | 0 => 0#0
  | n + 1 => BitVec.cons (m.bit (i + n)) (memRead m i n)

/-- `MemWrite(i, n, v)` (R20): store bit `i + t` takes `v[t]` for `t < n`, and no other bit changes. -/
def memWrite (m : Memory) (i : Nat) (n : Nat) (v : Word) : Memory :=
  match n with
  | 0 => m
  | n + 1 => (memWrite m i n v).setBit (i + n) (v.getLsbD n)

/-- The store with bytes `0 .. n-1` zero: the construction loop of R100 and R145. -/
def Memory.zeroBelow (m : Memory) (n : Nat) : Memory :=
  { m with cells := m.cells.filter (fun c => n ≤ c.1), zeroed := max m.zeroed n }

/-- The store with bytes `0 .. n-1` all equal to `b`. -/
def Memory.fillBelow (m : Memory) (b : Byte) : Nat → Memory
  | 0 => m
  | n + 1 => (m.writeByte n b).fillBelow b n

/-- The store with every bit of bytes `0 .. n-1` equal to `v`: the loop of R111. -/
def Memory.setAllBelow (m : Memory) (n : Nat) (v : Bool) : Memory :=
  if v then m.fillBelow 0xFF n else m.zeroBelow n

/-- The store with the bits `pos 0 .. pos (k-1)` set to 1: the loop of R147. -/
def Memory.setPositions (m : Memory) (pos : Nat → Nat) : Nat → Memory
  | 0 => m
  | k + 1 => (m.setPositions pos k).setBit (pos k) true

/-- Are the bits `pos 0 .. pos (k-1)` all 1: the conjunction of R148, 1 for `k = 0` (R151). -/
def Memory.allSet (m : Memory) (pos : Nat → Nat) : Nat → Bool
  | 0 => true
  | k + 1 => m.allSet pos k && m.bit (pos k)

/-! ### Faults (R181, R182) and their clearing (R27, R185) -/

/-- Fault entry, `raise Fault(code)` (R182): ERR, ERRCODE and ERROP are written and nothing else. -/
def raiseFault (f : FaultCode) (op : BitVec 8) (s : State) : State :=
  { s with err := true, errCode := f.code, errOp := op }

/-- The clearing of a fault (R27, R185): ERR, ERRCODE and ERROP return to 0; MODE is kept. -/
def clearFault (s : State) : State :=
  { s with err := false, errCode := 0, errOp := 0 }

/-! ### The command prologue (R180, R183, R184) -/

/-- Mode legality (R183). -/
def legalIn (i : Instr) (m : Mode) : Bool :=
  match i with
  | .vinit | .binit | .bsize => true
  | .vget | .vset _ | .vgetf | .vsetf | .vfill _ => m == .vector
  | .bins | .blook => m == .bloom

/-- A legal command word's run (R180): dropped while ERR = 1; a MODE fault where MODE does not allow the command;
otherwise the command's own rule, whose fault is entered with nothing else changed (R182). -/
def command (i : Instr) (rule : State → Except FaultCode State) (s : State) :
    Host.Outcome State Fault Refusal :=
  if s.err then .next s
  else if legalIn i s.mode then
    match rule s with
    | .ok t => .next t
    | .error f => .next (raiseFault f i.opcode s)
  else .next (raiseFault .mode i.opcode s)

/-- An illegal command word's run (R180, R184): dropped while ERR = 1, otherwise an ILLEGAL fault that records the
word's low byte (R181). -/
def illegalCommand (c : Word) (s : State) : State :=
  if s.err then s else raiseFault .illegal (opField c) s

/-! ### Reset (R210) -/

/-- The reset input: the values of R42, the constants kept (R23, R24), every store bit unspecified anew, and the
host's own side of the port untouched. -/
def resetBlock (s : State) : State :=
  { State.resetWith s.params with
    store := { cells := [], zeroed := 0, epoch := s.store.epoch + 1 }
    pending := s.pending
    replies := s.replies }

end Sys2Proof.Machine
end

