-- ==== Sys2Proof/Machine/Bloom.lean ====
section
/-! DEFINITION. The four Bloom filter commands (41_bloom.md). -/

namespace Sys2Proof.Machine

/-- The pseudocode of BINIT (R145). -/
def binitRule (s : State) : Except FaultCode State :=
  match sizingFault s with
  | some f => .error f
  | none =>
    if s.params.maxCapacityBits.toNat < filterSize s then .error .size
    else .ok { s with
      store := s.store.zeroBelow (bytesInUse s.params (filterSize s))
      capacity := BitVec.ofNat 64 (filterSize s)
      hashCount := BitVec.ofNat 64 (filterHashCount s)
      mode := .bloom }

/-- BINIT (R145). -/
def execBinit (s : State) : Host.Outcome State Fault Refusal := command .binit binitRule s

/-- The pseudocode of BINS (R147). -/
def binsRule (s : State) : Except FaultCode State :=
  .ok { s with store := s.store.setPositions (hashPosition s) s.hashCount.toNat }

/-- BINS (R147). -/
def execBins (s : State) : Host.Outcome State Fault Refusal := command .bins binsRule s

/-- The pseudocode of BLOOK (R148). -/
def blookRule (s : State) : Except FaultCode State :=
  .ok { s with
    result := (BitVec.ofBool (s.store.allSet (hashPosition s) s.hashCount.toNat)).setWidth 64 }

/-- BLOOK (R148). -/
def execBlook (s : State) : Host.Outcome State Fault Refusal := command .blook blookRule s

/-- The pseudocode of BSIZE (R149). -/
def bsizeRule (s : State) : Except FaultCode State :=
  match sizingFault s with
  | some f => .error f
  | none =>
    if 2 ^ 64 - 1 < filterSize s then .error .size
    else .ok { s with
      result := BitVec.ofNat 64 (filterSize s)
      result1 := BitVec.ofNat 64 (filterHashCount s) }

/-- BSIZE (R149). -/
def execBsize (s : State) : Host.Outcome State Fault Refusal := command .bsize bsizeRule s

end Sys2Proof.Machine
end

