-- ==== Sys2Proof/Machine/Vector.lean ====
section
/-! DEFINITION. The six bit-packed vector commands (40_bitvector.md). -/

namespace Sys2Proof.Machine

/-- The pseudocode of VINIT (R100). -/
def vinitRule (s : State) : Except FaultCode State :=
  if s.params.maxCapacityBits.toNat < sizeOperand s then .error .size
  else .ok { s with
    store := s.store.zeroBelow (bytesInUse s.params (sizeOperand s))
    capacity := s.arg0
    hashCount := 0
    mode := .vector }

/-- VINIT (R100). -/
def execVinit (s : State) : Host.Outcome State Fault Refusal := command .vinit vinitRule s

/-- The pseudocode of VGET (R101). -/
def vgetRule (s : State) : Except FaultCode State :=
  match indexFault s with
  | some f => .error f
  | none => .ok { s with result := (memRead s.store (bitIndex s) 1).setWidth 64 }

/-- VGET (R101). -/
def execVget (s : State) : Host.Outcome State Fault Refusal := command .vget vgetRule s

/-- The pseudocode of VSET (R102). -/
def vsetRule (value : Bool) (s : State) : Except FaultCode State :=
  match indexFault s with
  | some f => .error f
  | none => .ok { s with store := memWrite s.store (bitIndex s) 1 ((BitVec.ofBool value).setWidth 64) }

/-- VSET (R102). -/
def execVset (value : Bool) (s : State) : Host.Outcome State Fault Refusal :=
  command (.vset value) (vsetRule value) s

/-- The pseudocode of VGETF (R105). -/
def vgetfRule (s : State) : Except FaultCode State :=
  match fieldFault s with
  | some f => .error f
  | none => .ok { s with result := (memRead s.store (bitIndex s) (fieldLength s)).setWidth 64 }

/-- VGETF (R105). -/
def execVgetf (s : State) : Host.Outcome State Fault Refusal := command .vgetf vgetfRule s

/-- The pseudocode of VSETF (R106). -/
def vsetfRule (s : State) : Except FaultCode State :=
  match fieldFault s with
  | some f => .error f
  | none => .ok { s with store := memWrite s.store (bitIndex s) (fieldLength s) (fieldValue s) }

/-- VSETF (R106). -/
def execVsetf (s : State) : Host.Outcome State Fault Refusal := command .vsetf vsetfRule s

/-- The pseudocode of VFILL (R111): every block in use, the padding of the last one included. -/
def vfillRule (value : Bool) (s : State) : Except FaultCode State :=
  .ok { s with store := s.store.setAllBelow (bytesInUse s.params (capacityBits s)) value }

/-- VFILL (R111). -/
def execVfill (value : Bool) (s : State) : Host.Outcome State Fault Refusal :=
  command (.vfill value) (vfillRule value) s

end Sys2Proof.Machine
end

