-- ==== Sys2Proof/Machine/Dispatch.lean ====
section
/-! DEFINITION. One arm per command of 30_encoding.md R74, each one direct call of its meaning. -/

namespace Sys2Proof.Machine

def exec (i : Instr) (s : State) : Host.Outcome State Fault Refusal :=
  match i with
  | .vinit => Sys2Proof.Machine.execVinit s
  | .vget => Sys2Proof.Machine.execVget s
  | .vset value => Sys2Proof.Machine.execVset value s
  | .vgetf => Sys2Proof.Machine.execVgetf s
  | .vsetf => Sys2Proof.Machine.execVsetf s
  | .vfill value => Sys2Proof.Machine.execVfill value s
  | .binit => Sys2Proof.Machine.execBinit s
  | .bins => Sys2Proof.Machine.execBins s
  | .blook => Sys2Proof.Machine.execBlook s
  | .bsize => Sys2Proof.Machine.execBsize s

end Sys2Proof.Machine
end

