-- ==== Sys2Proof/Machine/Port.lean ====
section
/-! DEFINITION. The host port: register reads and writes by number (10_state.md section 1), the byte-addressed bus
(20_memory.md R52), the reset input, and a sequence of accesses (60_exceptions.md R195). -/

namespace Sys2Proof.Machine

/-- The register of a register number (10_state.md section 1); none from 11 on (R36). -/
def registerOf (number : Nat) : Option Reg :=
  match number with
  | 0 => some .cfg
  | 1 => some .maxcap
  | 2 => some .cmd
  | 3 => some .status
  | 4 => some .arg0
  | 5 => some .arg1
  | 6 => some .arg2
  | 7 => some .result
  | 8 => some .result1
  | 9 => some .capacity
  | 10 => some .hashcount
  | _ => none

/-- The number of a register. -/
def Reg.number : Reg → Nat
  | .cfg => 0
  | .maxcap => 1
  | .cmd => 2
  | .status => 3
  | .arg0 => 4
  | .arg1 => 5
  | .arg2 => 6
  | .result => 7
  | .result1 => 8
  | .capacity => 9
  | .hashcount => 10

/-- `x[r]` as the host reads it; CMD reads 0 (R25). -/
def readReg (r : Reg) (s : State) : Word :=
  match r with
  | .cfg => cfgWord s.params
  | .maxcap => s.params.maxCapacityBits
  | .cmd => 0
  | .status => statusWord s
  | .arg0 => s.arg0
  | .arg1 => s.arg1
  | .arg2 => s.arg2
  | .result => s.result
  | .result1 => s.result1
  | .capacity => s.capacity
  | .hashcount => s.hashCount

/-- A write of `c` to CMD (R25, R180): the command `c` encodes, or the fault of an illegal word. -/
def commandWrite (c : Word) (s : State) : Host.Outcome State Fault Refusal :=
  match decode c with
  | .ok i => exec i s
  | .error _ => .next (illegalCommand c s)

/-- A write of `v` to STATUS (R27): bit 0 clears the fault, the other bits are ignored. -/
def statusWrite (v : Word) (s : State) : State :=
  if v.getLsbD 0 then clearFault s else s

/-- A write of `v` to an assigned register; a read-only register ignores it (R37). -/
def writeReg (r : Reg) (v : Word) (s : State) : Host.Outcome State Fault Refusal :=
  match r with
  | .cmd => commandWrite v s
  | .status => .next (statusWrite v s)
  | .arg0 => .next { s with arg0 := v }
  | .arg1 => .next { s with arg1 := v }
  | .arg2 => .next { s with arg2 := v }
  | .cfg | .maxcap | .result | .result1 | .capacity | .hashcount => .next s

/-- A host read of register `number`: the value joins the host's record and nothing else changes (R37); stuck from
register 11 on (R36). -/
def hostRead (number : Nat) (s : State) : Host.Outcome State Fault Refusal :=
  match registerOf number with
  | some r => .next { s with replies := s.replies ++ [.word (readReg r s)] }
  | none => .refused (.unassignedRegister number)

/-- A host write of `v` to register `number`; stuck from register 11 on (R36). -/
def hostWrite (number : Nat) (v : Word) (s : State) : Host.Outcome State Fault Refusal :=
  match registerOf number with
  | some r => writeReg r v s
  | none => .refused (.unassignedRegister number)

/-- The word of a list of bytes, the first the least significant. -/
def wordOfBytes : List Byte → Word
  | [] => 0
  | b :: rest => b.setWidth 64 ||| (wordOfBytes rest <<< 8)

/-- The `n` low bytes of a word, the least significant first. -/
def bytesOfWord (w : Word) : Nat → List Byte
  | 0 => []
  | n + 1 => w.setWidth 8 :: bytesOfWord (w >>> 8) n

/-- A list of bytes in the other order for a big-endian bus (R52; two orders only: log 19). -/
def inBusOrder (o : ByteOrder) (bytes : List Byte) : List Byte :=
  match o with
  | .little => bytes
  | .big => bytes.reverse

/-- The register number a bus access reaches (R52): one naturally aligned 8-byte word at `REG_BASE + 8*r`; any
other access is refused. -/
def busRegister (p : Params) (address size : Nat) : Except Refusal Nat :=
  if size ≠ 8 ∨ address % 8 ≠ 0 then .error (.narrowOrMisaligned address size)
  else if address < p.regBase then .error (.outsideRegisterFile address)
  else if (address - p.regBase) % 8 ≠ 0 then .error (.narrowOrMisaligned address size)
  else .ok ((address - p.regBase) / 8)

/-- A bus read (R52): the register's bytes in HOST_BYTE_ORDER. -/
def busRead (address size : Nat) (s : State) : Host.Outcome State Fault Refusal :=
  match busRegister s.params address size with
  | .error e => .refused e
  | .ok number =>
    match registerOf number with
    | some r =>
      .next { s with
        replies := s.replies ++ [.bytes (inBusOrder s.params.hostByteOrder (bytesOfWord (readReg r s) 8))] }
    | none => .refused (.unassignedRegister number)

/-- A bus write (R52): the bytes form the register word in HOST_BYTE_ORDER. -/
def busWrite (address : Nat) (bytes : List Byte) (s : State) : Host.Outcome State Fault Refusal :=
  match busRegister s.params address bytes.length with
  | .error e => .refused e
  | .ok number => hostWrite number (wordOfBytes (inBusOrder s.params.hostByteOrder bytes)) s

/-- One access of the host, as one atomic step (R54, R195). -/
def perform (a : HostAccess) (s : State) : Host.Outcome State Fault Refusal :=
  match a with
  | .read number => hostRead number s
  | .write number value => hostWrite number value s
  | .busRead address size => busRead address size s
  | .busWrite address bytes => busWrite address bytes s
  | .reset => .next (resetBlock s)

/-- The accesses of a list one after another (R58), up to the first that is refused. -/
def performAll : List HostAccess → State → Host.Outcome State Fault Refusal
  | [], s => .next s
  | a :: rest, s =>
    match perform a s with
    | .next t => performAll rest t
    | .fault f => .fault f
    | .refused r => .refused r

end Sys2Proof.Machine
end

