-- ==== Sys2Proof/Machine/Step.lean ====
section
/-! DEFINITION. The step: the block has no program counter and no step of its own (10_state.md R33, 60_exceptions.md
R195); a step is the next access that reaches the port (20_memory.md R54, R58). -/

namespace Sys2Proof.Machine

/-- One step: the first pending access is taken off the list and performed; with none pending the block stays as
it is (R194, R195; log 2). -/
def step (s : State) : Host.Outcome State Fault Refusal :=
  match s.pending with
  | [] => .next s
  | a :: rest => perform a { s with pending := rest }

/-- The state whose next access is the host's write of the command word `w` to CMD (register 2, R25): a command
comes to the block as that write and is stored nowhere else (R33, log 3).  Bits from `nbits` upward are 0. -/
def State.withFetchWord (s : State) (nbits w : Nat) : State :=
  { s with pending := .write 2 (BitVec.ofNat 64 (w % 2 ^ nbits)) :: s.pending }

end Sys2Proof.Machine
end

