-- ==== Sys2Proof/Machine/BlockLevel.lean ====
section
/-! DEFINITION. The store as blocks (10_state.md R34) and the block-level forms of VGETF and VSETF (40_bitvector.md
R109, R110).  The commands use the bit-level rules; these forms are stated beside them to be compared. -/

namespace Sys2Proof.Machine

/-- `blk[j]`, the `B`-bit value whose bit `o` is store bit `j*B + o` (R20, R34), as a number. -/
def block (m : Memory) (B j : Nat) : Nat := (memRead m (j * B) B).toNat

/-- The store with `blk[j] <- v`, for a `B`-bit value and `B <= 64`. -/
def setBlock (m : Memory) (B j v : Nat) : Memory := memWrite m (j * B) B (BitVec.ofNat 64 v)

/-- The loop of R109 over `count` full middle blocks from block `j` on, with the result and the bit position so
far. -/
def readMiddle (m : Memory) (B : Nat) : (count j r pos : Nat) → Nat × Nat
  | 0, _, r, pos => (r, pos)
  | count + 1, j, r, pos => readMiddle m B count (j + 1) (r ||| (block m B j <<< pos)) (pos + B)

/-- The block-level form of VGETF (R109): the field of `L` bits at `i`. -/
def blockFieldRead (m : Memory) (B i L : Nat) : Nat :=
  let first := i / B
  let off := i % B
  let last := (i + L - 1) / B
  if first = last then (block m B first >>> off) &&& (2 ^ L - 1)
  else
    let (r, pos) := readMiddle m B (last - first - 1) (first + 1) (block m B first >>> off) (B - off)
    let rem := L - pos
    r ||| ((block m B last &&& (2 ^ rem - 1)) <<< pos)

/-- `x` with the bits of `y` cleared: `x & ~y` on non-negative integers. -/
def clearBits (x y : Nat) : Nat := x ^^^ (x &&& y)

/-- The loop of R110 over `count` full middle blocks from block `j` on, with the bit position so far. -/
def writeMiddle (B v : Nat) : (count : Nat) → (m : Memory) → (j pos : Nat) → Memory × Nat
  | 0, m, _, pos => (m, pos)
  | count + 1, m, j, pos =>
    writeMiddle B v count (setBlock m B j ((v >>> pos) &&& (2 ^ B - 1))) (j + 1) (pos + B)

/-- The block-level form of VSETF (R110): the field of `L` bits at `i` takes the value `v`, already masked. -/
def blockFieldWrite (m : Memory) (B i L v : Nat) : Memory :=
  let first := i / B
  let off := i % B
  let last := (i + L - 1) / B
  if first = last then
    setBlock m B first
      (clearBits (block m B first) ((2 ^ L - 1) <<< off) &&& (2 ^ B - 1) ||| (v <<< off))
  else
    let m1 := setBlock m B first
      ((block m B first &&& (2 ^ off - 1)) ||| ((v <<< off) &&& (2 ^ B - 1)))
    let (m2, pos) := writeMiddle B v (last - first - 1) m1 (first + 1) (B - off)
    let rem := L - pos
    setBlock m2 B last
      (clearBits (block m2 B last) (2 ^ rem - 1) &&& (2 ^ B - 1) ||| ((v >>> pos) &&& (2 ^ rem - 1)))

end Sys2Proof.Machine
end

