-- ==== Sys2Proof/Machine/Script.lean ====
section
/-! DEFINITION. The pseudo-instructions of the host script (30_encoding.md R81, R82), each a sequence of register
writes, ARG writes first and CMD last. -/

namespace Sys2Proof.Machine

/-- The pseudo-instructions of R82; `insert v` and `lookup v` are `bins` and `blook` after the host's own hashing
(R150, out of scope by R6). -/
inductive Pseudo where
  | vinit (cap : Word)
  | vget (i : Word)
  | vset (i : Word) (b : Bool)
  | vgetf (i len : Word)
  | vsetf (i len val : Word)
  | vfill (b : Bool)
  | binit (n pbits : Word)
  | bins (h : Word)
  | blook (h : Word)
  | bsize (n pbits : Word)
  | clrerr
  deriving DecidableEq, Repr

/-- `wr REG, imm` (R81). -/
def wr (r : Reg) (imm : Word) : HostAccess := .write r.number imm

/-- `rd REG` (R81). -/
def rd (r : Reg) : HostAccess := .read r.number

/-- The expansions of R82. -/
def Pseudo.expand : Pseudo → List HostAccess
  | .vinit cap => [wr .arg0 cap, wr .cmd 0x01]
  | .vget i => [wr .arg0 i, wr .cmd 0x02]
  | .vset i b => [wr .arg0 i, wr .cmd (0x03 ||| (BitVec.ofBool b).setWidth 64 <<< 8)]
  | .vgetf i len => [wr .arg0 i, wr .arg1 len, wr .cmd 0x04]
  | .vsetf i len val => [wr .arg0 i, wr .arg1 len, wr .arg2 val, wr .cmd 0x05]
  | .vfill b => [wr .cmd (0x06 ||| (BitVec.ofBool b).setWidth 64 <<< 8)]
  | .binit n pbits => [wr .arg0 n, wr .arg1 pbits, wr .cmd 0x11]
  | .bins h => [wr .arg0 h, wr .cmd 0x12]
  | .blook h => [wr .arg0 h, wr .cmd 0x13]
  | .bsize n pbits => [wr .arg0 n, wr .arg1 pbits, wr .cmd 0x14]
  | .clrerr => [wr .status 1]

end Sys2Proof.Machine
end

