-- ==== Sys2Proof/Safety.lean ====
section
/-! DEFINITION. The terms the claims use: the machine's invariant (10_state.md R41), a safe run (60_exceptions.md
R196), rounding to nearest (41_bloom.md R143), which accesses construct or clear, what the host can see of two states, and interleavings (20_memory.md R59). -/

namespace Sys2Proof.Machine

/-- The invariants of R41, with R35's bounds on the store: its canonical form, every byte of a block in use zeroed
since the last reset, nothing listed elsewhere, and all of it inside the physical store (R34). -/
structure State.Inv (s : State) : Prop where
  params_wf : s.params.wf = true
  capacity_fits : capacityBits s ≤ s.params.maxCapacityBits.toNat
  none_empty : s.mode = .none → s.capacity = 0 ∧ s.hashCount = 0
  vector_no_hash : s.mode = .vector → s.hashCount = 0
  bloom_nonempty : s.mode = .bloom → 1 ≤ capacityBits s
  no_fault_no_record : s.err = false → s.errCode = 0 ∧ s.errOp = 0
  fault_has_code : s.err = true → 1 ≤ s.errCode.toNat ∧ s.errCode.toNat ≤ 7
  store_wf : s.store.wf = true
  used_zeroed : bytesInUse s.params (capacityBits s) ≤ s.store.zeroed
  zeroed_fits : s.store.zeroed ≤ bytesInUse s.params s.params.maxCapacityBits.toNat
  cells_zeroed : ∀ c ∈ s.store.cells, c.1 < s.store.zeroed

/-- A safe run (R196): no access is refused and no fault is recorded at the end. -/
def SafeRun (accesses : List HostAccess) (s : State) : Prop :=
  ∃ t, performAll accesses s = .next t ∧ t.err = false

/-- The register and the value an access writes, if it is a write that reaches a register number. -/
def HostAccess.registerWrite (p : Params) (a : HostAccess) : Option (Nat × Word) :=
  match a with
  | .write number value => some (number, value)
  | .busWrite address bytes =>
    match busRegister p address bytes.length with
    | .ok number => some (number, wordOfBytes (inBusOrder p.hostByteOrder bytes))
    | .error _ => none
  | .read _ | .busRead _ _ | .reset => none

/-- The command an access issues, if it writes a legal word to CMD. -/
def HostAccess.commandOf (p : Params) (a : HostAccess) : Option Instr :=
  match a.registerWrite p with
  | some (2, c) =>
    match decode c with
    | .ok i => some i
    | .error _ => none
  | _ => none

/-- The accesses that may replace the structure the store holds: reset, VINIT and BINIT (R31). -/
def HostAccess.mayConstruct (p : Params) (a : HostAccess) : Bool :=
  a == .reset || a.commandOf p == some .vinit || a.commandOf p == some .binit

/-- The accesses that clear a recorded fault: reset, and a write to STATUS with bit 0 set (R185). -/
def HostAccess.clearsFault (p : Params) (a : HostAccess) : Bool :=
  a == .reset ||
    (match a.registerWrite p with
    | some (3, v) => v.getLsbD 0
    | _ => false)

/-- The accesses that only read a register (R37). -/
def HostAccess.isRead : HostAccess → Bool
  | .read _ | .busRead _ _ => true
  | .write _ _ | .busWrite _ _ | .reset => false

/-- Two states agree in every register but CFG, in the parameters but `B`, on the port, and in the addressable bits
`0 .. cap - 1` (R35, R107, R108): they may differ in `B`, in padding bits and in unused blocks. -/
structure SameVisible (s t : State) : Prop where
  params : t.params = { s.params with blockWidth := t.params.blockWidth }
  err : t.err = s.err
  errCode : t.errCode = s.errCode
  errOp : t.errOp = s.errOp
  mode : t.mode = s.mode
  arg0 : t.arg0 = s.arg0
  arg1 : t.arg1 = s.arg1
  arg2 : t.arg2 = s.arg2
  result : t.result = s.result
  result1 : t.result1 = s.result1
  capacity : t.capacity = s.capacity
  hashCount : t.hashCount = s.hashCount
  pending : t.pending = s.pending
  replies : t.replies = s.replies
  bits : ∀ i, i < capacityBits s → t.store.bit i = s.store.bit i

/-- `cs` is an interleaving of the accesses `as` of one agent and `bs` of another (R59). -/
inductive Interleaves : List HostAccess → List HostAccess → List HostAccess → Prop where
  | nil : Interleaves [] [] []
  | left {a : HostAccess} {as bs cs : List HostAccess} :
      Interleaves as bs cs → Interleaves (a :: as) bs (a :: cs)
  | right {b : HostAccess} {as bs cs : List HostAccess} :
      Interleaves as bs cs → Interleaves as (b :: bs) (b :: cs)

/-- `r` is the 53-bit value nearest to `q`, with the even significand where two are equally near: rounding to nearest,
ties to even, with an unbounded exponent (R143). -/
def NearestBinary64 (q r : ℚ) : Prop :=
  ∃ (significand : Nat) (exponent : Int),
    r = (significand : ℚ) * (2 : ℚ) ^ exponent ∧ 2 ^ 52 ≤ significand ∧ significand < 2 ^ 53 ∧
    ∀ (other : Nat) (e : Int), other < 2 ^ 53 →
      |r - q| ≤ |(other : ℚ) * (2 : ℚ) ^ e - q| ∧
      (|r - q| = |(other : ℚ) * (2 : ℚ) ^ e - q| → (other : ℚ) * (2 : ℚ) ^ e ≠ r → significand % 2 = 0)

end Sys2Proof.Machine
end

