-- ==== Sys2Proof/Certificates/Slice0/Obligations.lean ====
section
/-! DEFINITION. The statements for the provers.  The store's address unit is one bit (00_scope.md R20), so what a
command does to the store is said through the read of one bit, `Memory.bit`, for every bit of it. -/

open Sys2Proof Sys2Proof.Machine

/-! ### Reset and the registers -/

/-- R42: the reset values of the registers, for every instance.  Two clauses are the model's choice: that the store
bits are the free values `Config.freeByte 0` (log 1), which no proof can see, where R42 says unspecified; and that
`State.reset` is the reset state of `Config.params` (log 8). -/
def Obligations.ResetValues : Prop :=
  State.reset = State.resetWith Config.params ∧
  ∀ p : Params,
    readReg .cfg (State.resetWith p) = cfgWord p ∧
    readReg .maxcap (State.resetWith p) = p.maxCapacityBits ∧
    readReg .cmd (State.resetWith p) = 0 ∧
    readReg .status (State.resetWith p) = 0 ∧
    (State.resetWith p).err = false ∧
    (State.resetWith p).errCode = 0 ∧
    (State.resetWith p).errOp = 0 ∧
    (State.resetWith p).mode = .none ∧
    readReg .arg0 (State.resetWith p) = 0 ∧
    readReg .arg1 (State.resetWith p) = 0 ∧
    readReg .arg2 (State.resetWith p) = 0 ∧
    readReg .result (State.resetWith p) = 0 ∧
    readReg .result1 (State.resetWith p) = 0 ∧
    readReg .capacity (State.resetWith p) = 0 ∧
    readReg .hashcount (State.resetWith p) = 0 ∧
    ∀ i, (State.resetWith p).store.bit i = (Config.freeByte 0 (i / 8)).getLsbD (i % 8)

/-- R210: the reset input in any state, in one step: the values of R42, CFG and MAXCAP kept.  The clause on the store
bits is the model's choice: where R210 says that every bit becomes unspecified, they are the free values (log 1) of the
next epoch, a counter of the model's own (log 10). -/
def Obligations.ResetInput : Prop :=
  ∀ s : State, ∃ t, perform .reset s = .next t ∧
    readReg .status t = 0 ∧ t.err = false ∧ t.errCode = 0 ∧ t.errOp = 0 ∧ t.mode = .none ∧
    t.arg0 = 0 ∧ t.arg1 = 0 ∧ t.arg2 = 0 ∧ t.result = 0 ∧ t.result1 = 0 ∧
    t.capacity = 0 ∧ t.hashCount = 0 ∧ t.params = s.params ∧
    readReg .cfg t = readReg .cfg s ∧ readReg .maxcap t = readReg .maxcap s ∧
    ∀ i, t.store.bit i = (Config.freeByte (s.store.epoch + 1) (i / 8)).getLsbD (i % 8)

/-- R23, R24: the fields of CFG, MAXCAP's value, that writes to both are ignored, and that no step changes either. -/
def Obligations.ConfigurationRegistersConstant : Prop :=
  ∀ s : State,
    (readReg .cfg s).extractLsb' 0 8 = BitVec.ofNat 8 (blockBits s.params.blockWidth) ∧
    blockBits s.params.blockWidth ∈ [8, 16, 32, 64] ∧
    (readReg .cfg s).extractLsb' 8 8 = 64 ∧
    (readReg .cfg s).extractLsb' 16 8 = 1 ∧
    (readReg .cfg s).extractLsb' 24 40 = 0 ∧
    readReg .maxcap s = s.params.maxCapacityBits ∧
    (∀ v, hostWrite 0 v s = .next s ∧ hostWrite 1 v s = .next s) ∧
    ∀ t, step s = .next t → readReg .cfg t = readReg .cfg s ∧ readReg .maxcap t = readReg .maxcap s

/-- R26's layout, and R26's writers: an access changes ERRCODE or ERROP only by entering a fault or by clearing
one, and changes MODE only by reset or by a VINIT or BINIT command. -/
def Obligations.StatusFieldsAndWriters : Prop :=
  (∀ s : State,
    (readReg .status s).getLsbD 0 = s.err ∧
    (readReg .status s).extractLsb' 1 7 = 0 ∧
    (readReg .status s).extractLsb' 8 8 = s.errCode ∧
    (readReg .status s).extractLsb' 16 8 = s.errOp ∧
    (readReg .status s).extractLsb' 24 2 = (match s.mode with | .none => 0 | .vector => 1 | .bloom => 2) ∧
    (readReg .status s).extractLsb' 26 38 = 0) ∧
  ∀ (a : HostAccess) (s t : State), perform a s = .next t →
    (t.errCode ≠ s.errCode ∨ t.errOp ≠ s.errOp →
      (s.err = false ∧ t.err = true) ∨ a.clearsFault s.params = true) ∧
    (t.mode ≠ s.mode → a.mayConstruct s.params = true)

/-- R27: a write to STATUS clears the fault record when bit 0 is set and changes nothing otherwise. -/
def Obligations.StatusWriteClears : Prop :=
  ∀ (v : Word) (s : State),
    (v.getLsbD 0 = true → hostWrite 3 v s = .next { s with err := false, errCode := 0, errOp := 0 }) ∧
    (v.getLsbD 0 = false → hostWrite 3 v s = .next s)

/-- R28: ARG0 to ARG2 take what the host writes, are read back, and keep their value through every command and
every other access but reset. -/
def Obligations.OperandRegisters : Prop :=
  (∀ (v : Word) (s : State),
    hostWrite 4 v s = .next { s with arg0 := v } ∧
    hostWrite 5 v s = .next { s with arg1 := v } ∧
    hostWrite 6 v s = .next { s with arg2 := v } ∧
    readReg .arg0 s = s.arg0 ∧ readReg .arg1 s = s.arg1 ∧ readReg .arg2 s = s.arg2) ∧
  (∀ (i : Instr) (s t : State), exec i s = .next t →
    t.arg0 = s.arg0 ∧ t.arg1 = s.arg1 ∧ t.arg2 = s.arg2) ∧
  ∀ (a : HostAccess) (s t : State), perform a s = .next t → a ≠ .reset →
    (t.arg0 ≠ s.arg0 → ∃ v, a.registerWrite s.params = some (4, v) ∧ t.arg0 = v) ∧
    (t.arg1 ≠ s.arg1 → ∃ v, a.registerWrite s.params = some (5, v) ∧ t.arg1 = v) ∧
    (t.arg2 ≠ s.arg2 → ∃ v, a.registerWrite s.params = some (6, v) ∧ t.arg2 = v)

/-- R29: who writes RESULT and RESULT1; a faulting or dropped command leaves both unchanged, and so does every
access that is neither a reset nor one of those commands. -/
def Obligations.ResultRegisters : Prop :=
  (∀ (i : Instr) (s t : State), exec i s = .next t →
    (t.result ≠ s.result → i = .vget ∨ i = .vgetf ∨ i = .blook ∨ i = .bsize) ∧
    (t.result1 ≠ s.result1 → i = .bsize) ∧
    (t.err = true → t.result = s.result ∧ t.result1 = s.result1)) ∧
  (∀ (a : HostAccess) (s t : State), perform a s = .next t → a ≠ .reset →
    (t.result ≠ s.result →
      a.commandOf s.params ∈ [some .vget, some .vgetf, some .blook, some .bsize]) ∧
    (t.result1 ≠ s.result1 → a.commandOf s.params = some .bsize)) ∧
  ∀ (v : Word) (s : State), hostWrite 7 v s = .next s ∧ hostWrite 8 v s = .next s

/-- R31, R32: what sets CAPACITY and HASHCOUNT, and that no other access changes them.  That BINIT's HASHCOUNT is the
whole of `k` and not `k` modulo 2^64 is deduced from R144 (log 18); in the binary64 modes it rests on the range the
model gives LN64 (log 5, DEDUCED). -/
def Obligations.CapacityAndHashCount : Prop :=
  (∀ s t : State, s.err = false → exec .vinit s = .next t → t.err = false →
    t.capacity = s.arg0 ∧ t.hashCount = 0) ∧
  (∀ s t : State, s.err = false → exec .binit s = .next t → t.err = false →
    t.capacity.toNat = sizeBits s.params.sizingMode s.arg0.toNat s.arg1 ∧
    t.hashCount.toNat = sizedHashCount s.params.sizingMode t.capacity.toNat s.arg0.toNat) ∧
  (∀ (a : HostAccess) (s t : State), perform a s = .next t → a.mayConstruct s.params = false →
    t.capacity = s.capacity ∧ t.hashCount = s.hashCount) ∧
  (∀ s t : State, perform .reset s = .next t → t.capacity = 0 ∧ t.hashCount = 0) ∧
  ∀ (v : Word) (s : State), hostWrite 9 v s = .next s ∧ hostWrite 10 v s = .next s

/-- R37: a read of an assigned register only tells the host its value, which is 0 for CMD (R25) and for each register
that stores a word that word; a write to a read-only register is ignored. -/
def Obligations.ReadsAndIgnoredWrites : Prop :=
  (∀ s : State,
    hostRead 2 s = .next { s with replies := s.replies ++ [.word 0] } ∧
    hostRead 4 s = .next { s with replies := s.replies ++ [.word s.arg0] } ∧
    hostRead 5 s = .next { s with replies := s.replies ++ [.word s.arg1] } ∧
    hostRead 6 s = .next { s with replies := s.replies ++ [.word s.arg2] } ∧
    hostRead 7 s = .next { s with replies := s.replies ++ [.word s.result] } ∧
    hostRead 8 s = .next { s with replies := s.replies ++ [.word s.result1] } ∧
    hostRead 9 s = .next { s with replies := s.replies ++ [.word s.capacity] } ∧
    hostRead 10 s = .next { s with replies := s.replies ++ [.word s.hashCount] } ∧
    readReg .cmd s = 0 ∧ readReg .result s = s.result ∧ readReg .result1 s = s.result1 ∧
    readReg .capacity s = s.capacity ∧ readReg .hashcount s = s.hashCount) ∧
  ∀ (r : Reg) (v : Word) (s : State),
    hostRead r.number s = .next { s with replies := s.replies ++ [.word (readReg r s)] } ∧
    (r ∈ [.cfg, .maxcap, .result, .result1, .capacity, .hashcount] → hostWrite r.number v s = .next s)

/-- R36: every access to a register number from 11 on is refused; the machine has no step for it. -/
def Obligations.UnassignedRegistersStuck : Prop :=
  ∀ (n : Nat) (v : Word) (s : State), 11 ≤ n →
    perform (.read n) s = .refused (.unassignedRegister n) ∧
    perform (.write n v) s = .refused (.unassignedRegister n)

/-- R52: on a byte-addressed bus, register `r` is the aligned 8-byte word at `REG_BASE + 8*r` in HOST_BYTE_ORDER;
an access of another size or alignment is refused.  That HOST_BYTE_ORDER is little- or big-endian is the model's choice
(log 19), that a wider access is refused too (log 7), and that REG_BASE is aligned is deduced (log 6). -/
def Obligations.BusRegisterFile : Prop :=
  (∀ (w : Word) (k : Nat), k < 8 → (bytesOfWord w 8)[k]? = some (w.extractLsb' (8 * k) 8)) ∧
  (∀ (s : State) (r : Reg) (w : Word), s.params.regBaseAligned = true →
    perform (.busWrite (s.params.regBase + 8 * r.number)
      (match s.params.hostByteOrder with
        | .little => bytesOfWord w 8
        | .big => (bytesOfWord w 8).reverse)) s = writeReg r w s ∧
    perform (.busRead (s.params.regBase + 8 * r.number) 8) s =
      .next { s with replies := s.replies ++ [.bytes
        (match s.params.hostByteOrder with
          | .little => bytesOfWord (readReg r s) 8
          | .big => (bytesOfWord (readReg r s) 8).reverse)] }) ∧
  ∀ (s : State) (address size : Nat) (bytes : List Byte), size ≠ 8 ∨ address % 8 ≠ 0 →
    perform (.busRead address size) s = .refused (.narrowOrMisaligned address size) ∧
    (bytes.length = size →
      perform (.busWrite address bytes) s = .refused (.narrowOrMisaligned address size))

/-! ### Encoding -/

/-- R74: words written out from the table decode to the commands they stand for. -/
def Obligations.DecodeWrittenWords : Prop :=
  decode 0x0000000000000001 = .ok .vinit ∧
  decode 0x0000000000000002 = .ok .vget ∧
  decode 0x0000000000000003 = .ok (.vset false) ∧
  decode 0x0000000000000103 = .ok (.vset true) ∧
  decode 0x0000000000000004 = .ok .vgetf ∧
  decode 0x0000000000000005 = .ok .vsetf ∧
  decode 0x0000000000000106 = .ok (.vfill true) ∧
  decode 0x0000000000000011 = .ok .binit ∧
  decode 0x0000000000000012 = .ok .bins ∧
  decode 0x0000000000000013 = .ok .blook ∧
  decode 0x0000000000000014 = .ok .bsize ∧
  decode 0x0000000000000101 = .error .immediateOnFormatN ∧
  decode 0x0000000000000204 = .error .reservedBits ∧
  decode 0x0000000000000007 = .error .unknownOpcode

/-- R71, R72, R74: a word decodes to a command exactly when it is that command's encoding. -/
def Obligations.DecodeIffEncode : Prop :=
  ∀ (c : Word) (i : Instr), i.wf = true → (decode c = .ok i ↔ c = encode i)

/-- R73: the illegal words are exactly those of its three conditions; every other word is the word of exactly one
command; an illegal word faults ILLEGAL. -/
def Obligations.IllegalWords : Prop :=
  ∀ c : Word,
    ((∃ e, decode c = .error e) ↔
      c.extractLsb' 9 55 ≠ 0 ∨
      c.extractLsb' 0 8 ∉ ([0x01, 0x02, 0x03, 0x04, 0x05, 0x06, 0x11, 0x12, 0x13, 0x14] : List (BitVec 8)) ∨
      (c.extractLsb' 0 8 ∈ ([0x01, 0x02, 0x04, 0x05, 0x11, 0x12, 0x13, 0x14] : List (BitVec 8)) ∧
        c.getLsbD 8 = true)) ∧
    ((∃ e, decode c = .error e) ↔ ¬ ∃ i, c = encode i) ∧
    (∀ i j, c = encode i → c = encode j → i = j) ∧
    ∀ (e : DecodeError) (s : State), decode c = .error e → s.err = false →
      hostWrite 2 c s = .next { s with err := true, errCode := 1, errOp := c.extractLsb' 0 8 }

/-- R73's last sentence on spec/opcode_table.json: a word the decoder reads is covered by exactly one row, the
command's own, and an illegal word by none. -/
def Obligations.OneTableRowOrIllegal : Prop :=
  ∀ c : Word,
    (opcodeTable.filter fun r => r.covers c).map OpcodeRow.mnemonic =
      (match decode c with
        | .ok i => [i.mnemonic]
        | .error _ => [])

/-! ### The prologue and faults -/

/-- R180: a write to CMD drops, faults ILLEGAL, faults MODE or performs the command, in that order. -/
def Obligations.CommandPrologue : Prop :=
  ∀ (c : Word) (s : State),
    (s.err = true → hostWrite 2 c s = .next s) ∧
    (s.err = false → ∀ e, decode c = .error e →
      hostWrite 2 c s = .next { s with err := true, errCode := 1, errOp := c.extractLsb' 0 8 }) ∧
    (s.err = false → ∀ i, decode c = .ok i → legalIn i s.mode = false →
      hostWrite 2 c s = .next { s with err := true, errCode := 2, errOp := c.extractLsb' 0 8 }) ∧
    (s.err = false → ∀ i, decode c = .ok i → legalIn i s.mode = true → hostWrite 2 c s = exec i s)

/-- R183: which commands MODE forbids, and that a MODE fault is entered exactly then. -/
def Obligations.ModeLegality : Prop :=
  ∀ (i : Instr) (s : State), s.err = false →
    ((match i with
      | .vinit | .binit | .bsize => False
      | .vget | .vset _ | .vgetf | .vsetf | .vfill _ => s.mode ≠ .vector
      | .bins | .blook => s.mode ≠ .bloom) ↔
      ∃ t, exec i s = .next t ∧ t.err = true ∧ t.errCode = 2)

/-- R182: a fault is precise: a word that faults, illegal or not, writes ERR, ERRCODE and ERROP and nothing
else. -/
def Obligations.FaultsArePrecise : Prop :=
  ∀ (c : Word) (s t : State), s.err = false → hostWrite 2 c s = .next t → t.err = true →
    ∃ f : FaultCode,
      t = { s with err := true, errCode := f.code, errOp := c.extractLsb' 0 8 } ∧
      ((∃ e, decode c = .error e) ↔ f = .illegal)

/-- R185: a recorded fault is cleared by a STATUS write with bit 0 set and by reset, and by no other access. -/
def Obligations.FaultClearedOnlyByHost : Prop :=
  ∀ (a : HostAccess) (s t : State), s.err = true → perform a s = .next t →
    (t.err = false ↔ a.clearsFault s.params = true)

/-- R186: while ERR = 1 commands are dropped and the record is kept; STATUS writes with bit 0 = 0, ARG writes and
register reads are still performed. -/
def Obligations.FaultsDoNotNest : Prop :=
  ∀ s : State, s.err = true →
    (∀ c, hostWrite 2 c s = .next s) ∧
    (∀ v : Word, v.getLsbD 0 = false → hostWrite 3 v s = .next s) ∧
    (∀ v, hostWrite 4 v s = .next { s with arg0 := v } ∧ hostWrite 5 v s = .next { s with arg1 := v } ∧
      hostWrite 6 v s = .next { s with arg2 := v }) ∧
    (∀ r : Reg, hostRead r.number s = .next { s with replies := s.replies ++ [.word (readReg r s)] }) ∧
    ∀ (a : HostAccess) (t : State), perform a s = .next t → t.err = true →
      t.errCode = s.errCode ∧ t.errOp = s.errOp

/-- R54, R221: a write to CMD always completes, whatever the word and the state. -/
def Obligations.CommandsComplete : Prop :=
  ∀ (c : Word) (s : State), ∃ t, perform (.write 2 c) s = .next t

/-! ### Vector commands -/

/-- R100: VINIT zeroes every bit of the blocks in use, padding included, and sets CAPACITY, HASHCOUNT and MODE, in
every mode; above MAX_CAPACITY_BITS it faults SIZE. -/
def Obligations.VinitResult : Prop :=
  decode 0x0000000000000001 = .ok .vinit ∧
  ∀ s : State, s.err = false →
    (s.arg0.toNat ≤ s.params.maxCapacityBits.toNat →
      ∃ m, exec .vinit s =
          .next { s with store := m, capacity := s.arg0, hashCount := 0, mode := .vector } ∧
        ∀ i, m.bit i =
          if i / blockBits s.params.blockWidth <
            (s.arg0.toNat + (blockBits s.params.blockWidth - 1)) / blockBits s.params.blockWidth
          then false else s.store.bit i) ∧
    (s.params.maxCapacityBits.toNat < s.arg0.toNat →
      exec .vinit s = .next { s with err := true, errCode := 7, errOp := 0x01 })

/-- R101: VGET reads store bit `x[ARG0]`; at or above CAPACITY it faults INDEX. -/
def Obligations.VgetResult : Prop :=
  decode 0x0000000000000002 = .ok .vget ∧
  (∀ s : State, s.err = false → s.mode ≠ .vector →
    exec .vget s = .next { s with err := true, errCode := 2, errOp := 0x02 }) ∧
  ∀ s : State, s.err = false → s.mode = .vector →
    (s.arg0.toNat < s.capacity.toNat →
      exec .vget s = .next { s with result := if s.store.bit s.arg0.toNat then 1 else 0 }) ∧
    (s.capacity.toNat ≤ s.arg0.toNat →
      exec .vget s = .next { s with err := true, errCode := 3, errOp := 0x02 })

/-- R102: VSET writes store bit `x[ARG0]` and no other bit; at or above CAPACITY it faults INDEX. -/
def Obligations.VsetResult : Prop :=
  decode 0x0000000000000003 = .ok (.vset false) ∧ decode 0x0000000000000103 = .ok (.vset true) ∧
  (∀ (value : Bool) (s : State), s.err = false → s.mode ≠ .vector →
    exec (.vset value) s = .next { s with err := true, errCode := 2, errOp := 0x03 }) ∧
  ∀ (value : Bool) (s : State), s.err = false → s.mode = .vector →
    (s.arg0.toNat < s.capacity.toNat →
      ∃ m, exec (.vset value) s = .next { s with store := m } ∧
        ∀ i, m.bit i = if i = s.arg0.toNat then value else s.store.bit i) ∧
    (s.capacity.toNat ≤ s.arg0.toNat →
      exec (.vset value) s = .next { s with err := true, errCode := 3, errOp := 0x03 })

/-- R103, R104, R105: VGETF reads the field of `L = min(x[ARG1], 64)` bits at `x[ARG0]`, least significant first;
`L = 0` faults LENGTH, and a field past CAPACITY faults INDEX. -/
def Obligations.VgetfResult : Prop :=
  decode 0x0000000000000004 = .ok .vgetf ∧
  (∀ s : State, s.err = false → s.mode ≠ .vector →
    exec .vgetf s = .next { s with err := true, errCode := 2, errOp := 0x04 }) ∧
  ∀ s : State, s.err = false → s.mode = .vector →
    (1 ≤ s.arg1.toNat → s.arg0.toNat + min s.arg1.toNat 64 ≤ s.capacity.toNat →
      ∃ w : Word, exec .vgetf s = .next { s with result := w } ∧
        ∀ t, w.getLsbD t = (decide (t < min s.arg1.toNat 64) && s.store.bit (s.arg0.toNat + t))) ∧
    (s.arg1.toNat = 0 → exec .vgetf s = .next { s with err := true, errCode := 4, errOp := 0x04 }) ∧
    (1 ≤ s.arg1.toNat → s.capacity.toNat < s.arg0.toNat + min s.arg1.toNat 64 →
      exec .vgetf s = .next { s with err := true, errCode := 3, errOp := 0x04 })

/-- R103, R104, R106: VSETF writes the low `L` bits of ARG2 to the field at `x[ARG0]` and no other store bit; its
faults are those of VGETF. -/
def Obligations.VsetfResult : Prop :=
  decode 0x0000000000000005 = .ok .vsetf ∧
  (∀ s : State, s.err = false → s.mode ≠ .vector →
    exec .vsetf s = .next { s with err := true, errCode := 2, errOp := 0x05 }) ∧
  ∀ s : State, s.err = false → s.mode = .vector →
    (1 ≤ s.arg1.toNat → s.arg0.toNat + min s.arg1.toNat 64 ≤ s.capacity.toNat →
      ∃ m, exec .vsetf s = .next { s with store := m } ∧
        ∀ i, m.bit i =
          if s.arg0.toNat ≤ i ∧ i < s.arg0.toNat + min s.arg1.toNat 64
          then s.arg2.getLsbD (i - s.arg0.toNat) else s.store.bit i) ∧
    (s.arg1.toNat = 0 → exec .vsetf s = .next { s with err := true, errCode := 4, errOp := 0x05 }) ∧
    (1 ≤ s.arg1.toNat → s.capacity.toNat < s.arg0.toNat + min s.arg1.toNat 64 →
      exec .vsetf s = .next { s with err := true, errCode := 3, errOp := 0x05 })

/-- R111: VFILL sets every bit of the blocks in use, padding included, to V, and no other bit; it has no fault of
its own. -/
def Obligations.VfillResult : Prop :=
  decode 0x0000000000000006 = .ok (.vfill false) ∧ decode 0x0000000000000106 = .ok (.vfill true) ∧
  (∀ (value : Bool) (s : State), s.err = false → s.mode ≠ .vector →
    exec (.vfill value) s = .next { s with err := true, errCode := 2, errOp := 0x06 }) ∧
  ∀ (value : Bool) (s : State), s.err = false → s.mode = .vector →
    ∃ m, exec (.vfill value) s = .next { s with store := m } ∧
      ∀ i, m.bit i =
        if i / blockBits s.params.blockWidth <
          (s.capacity.toNat + (blockBits s.params.blockWidth - 1)) / blockBits s.params.blockWidth
        then value else s.store.bit i

/-- R112 (a) to (d): the source's laws of the vector commands. -/
def Obligations.VectorLaws : Prop :=
  (∀ (b : Bool) (s : State), s.err = false → s.mode = .vector → s.arg0.toNat < s.capacity.toNat →
    ∃ t u, exec (.vset b) s = .next t ∧ exec .vget t = .next u ∧ u.err = false ∧
      u.result = if b then 1 else 0) ∧
  (∀ s : State, s.err = false → s.mode = .vector → 1 ≤ s.arg1.toNat →
    s.arg0.toNat + min s.arg1.toNat 64 ≤ s.capacity.toNat →
    ∃ t u, exec .vsetf s = .next t ∧ exec .vgetf t = .next u ∧ u.err = false ∧
      u.result = s.arg2 &&& BitVec.ofNat 64 (2 ^ min s.arg1.toNat 64 - 1)) ∧
  (∀ (b : Bool) (s : State), s.err = false → s.mode = .vector →
    ∃ t, exec (.vfill b) s = .next t ∧ ∀ i : Word, i.toNat < s.capacity.toNat →
      ∃ u, exec .vget { t with arg0 := i } = .next u ∧ u.err = false ∧ u.result = if b then 1 else 0) ∧
  ∀ (i : Instr) (s t : State), exec i s = .next t → i = .vget ∨ i = .vgetf ∨ t.err = true →
    t.store = s.store

/-- R214: after a VINIT or BINIT that did not fault, every addressable bit is 0. -/
def Obligations.FreshStructureIsZero : Prop :=
  ∀ (i : Instr) (s t : State), i = .vinit ∨ i = .binit → s.err = false → exec i s = .next t → t.err = false →
    ∀ j, j < t.capacity.toNat → t.store.bit j = false

/-! ### The block-level forms -/

/-- R109: the block-level algorithm of VGETF gives the value of the bit-level rule, for every block width. -/
def Obligations.BlockLevelRead : Prop :=
  ∀ (m : Memory) (w : BlockWidth) (i L : Nat), 1 ≤ L → L ≤ 64 →
    blockFieldRead m (blockBits w) i L = (memRead m i L).toNat

/-- R110: the block-level algorithm of VSETF leaves the store with the bits of the bit-level rule, for every block
width. -/
def Obligations.BlockLevelWrite : Prop :=
  ∀ (m : Memory) (w : BlockWidth) (i L : Nat) (v : Word), 1 ≤ L → L ≤ 64 → v.toNat < 2 ^ L →
    ∀ j, (blockFieldWrite m (blockBits w) i L v.toNat).bit j = (memWrite m i L v).bit j

/-- R107: from two states that differ only in `B`, in padding and in unused blocks, every command gives the same
registers, faults and addressable bits.  The premise on BLOOM mode is R41's, kept by every step
(`InvariantKept`). -/
def Obligations.BlockWidthIndependence : Prop :=
  ∀ (i : Instr) (s t s' : State), SameVisible s t → (s.mode = .bloom → 1 ≤ s.capacity.toNat) →
    exec i s = .next s' → ∃ t', exec i t = .next t' ∧ SameVisible s' t'

/-- R108, R212: whatever sequence of accesses the host makes, nothing it reads back and nothing it can address
depends on a padding bit or on a block not in use. -/
def Obligations.PaddingNeverObserved : Prop :=
  ∀ (accesses : List HostAccess) (s t s' : State), s.Inv → SameVisible s t → t.params = s.params →
    performAll accesses s = .next s' →
    ∃ t', performAll accesses t = .next t' ∧ SameVisible s' t' ∧ t'.replies = s'.replies

/-! ### Sizing -/

/-- R77: the binary64 layout of the error rate, and that the legal patterns are exactly the reals of (0, 1). -/
def Obligations.ErrorRateOperand : Prop :=
  ∀ pb : Word,
    ((1 ≤ pb.toNat ∧ pb.toNat ≤ 0x3FEFFFFFFFFFFFFF) ↔ ∃ p, binary64Value pb = some p ∧ 0 < p ∧ p < 1) ∧
    ((pb.extractLsb' 52 11).toNat = 2047 → binary64Value pb = none) ∧
    ((pb.extractLsb' 52 11).toNat = 0 →
      binary64Value pb =
        some ((if pb.getLsbD 63 then -1 else 1) * ((pb.extractLsb' 0 52).toNat : ℚ) / 2 ^ 1074)) ∧
    (1 ≤ (pb.extractLsb' 52 11).toNat → (pb.extractLsb' 52 11).toNat ≤ 2046 →
      binary64Value pb =
        some ((if pb.getLsbD 63 then -1 else 1) * (1 + ((pb.extractLsb' 0 52).toNat : ℚ) / 2 ^ 52) *
          (2 : ℚ) ^ (((pb.extractLsb' 52 11).toNat : ℤ) - 1023)))

/-- R140 in mode EXACT: `sizeBits` is the ceiling of the real number `-ln(p) * n / ln(2)^2`, for every population of
64 bits and every error rate (log 4); for a larger `n`, where the first rational enclosure decides the ceiling. -/
def Obligations.ExactSizeIsRealCeiling : Prop :=
  ∀ (n : Nat) (pb : Word) (p : ℚ), 1 ≤ n → n < 2 ^ 64 ∨ sizeDecided logTerms n pb = true →
    binary64Value pb = some p → 0 < p → p < 1 →
    (sizeBits .exact n pb : ℤ) = ⌈-Real.log (p : ℝ) * n / Real.log 2 ^ 2⌉

/-- How far the first enclosure reaches (log 4): it holds the real value, it is narrower than `2^-200`, and the size is
the ceiling of one of its two ends. -/
def Obligations.SizeEnclosureIsTight : Prop :=
  ∀ (n : Nat) (pb : Word), 1 ≤ n → n < 2 ^ 64 → errorRateLegal pb = true →
    (sizeLower logTerms n pb : ℝ) ≤ -Real.log (binary64Magnitude pb : ℝ) * n / Real.log 2 ^ 2 ∧
    -Real.log (binary64Magnitude pb : ℝ) * n / Real.log 2 ^ 2 ≤ (sizeUpper logTerms n pb : ℝ) ∧
    sizeUpper logTerms n pb - sizeLower logTerms n pb < 1 / 2 ^ 200 ∧
    ((sizeBits .exact n pb : ℤ) = ⌈sizeLower logTerms n pb⌉ ∨
      (sizeBits .exact n pb : ℤ) = ⌈sizeUpper logTerms n pb⌉)

/-- R140 in mode EXACT: `hashCount` is the floor of the real number `m * ln(2) / n`, for every filter size. -/
def Obligations.ExactHashCountIsRealFloor : Prop :=
  ∀ m n : Nat, m < 2 ^ 64 → 1 ≤ n →
    (sizedHashCount .exact m n : ℤ) = ⌊(m : ℝ) * Real.log 2 / n⌋

/-- R142: every filter has at least one bit, in every SIZING_MODE (the binary64 modes rest on log 5), and in mode
EXACT `k < m`. -/
def Obligations.FilterSizePositive : Prop :=
  ∀ (n : Nat) (pb : Word), 1 ≤ n → n < 2 ^ 64 → errorRateLegal pb = true →
    (∀ mode, 1 ≤ sizeBits mode n pb) ∧
    sizedHashCount .exact (sizeBits .exact n pb) n < sizeBits .exact n pb

/-- R144: `k <= 2^64 - 1` whenever `m` is, so RESULT1 and HASHCOUNT hold it, in every SIZING_MODE (the binary64
modes rest on log 5). -/
def Obligations.HashCountFitsRegister : Prop :=
  ∀ (mode : SizingMode) (m n : Nat), m < 2 ^ 64 → 1 ≤ n → n < 2 ^ 64 → sizedHashCount mode m n < 2 ^ 64

/-- R143: rounding is to the nearest 53-bit value, ties to even, for every positive rational (the operations stay
inside the binary64 exponent range: log 5). -/
def Obligations.RoundingIsToNearestEven : Prop :=
  ∀ q : ℚ, 0 < q → NearestBinary64 q (roundBinary64 q)

/-- R143: the two binary64 forms of `sizeBits` and the binary64 `hashCount`, operation by operation, each one rounded
to nearest: `(((-LN64(p)) * n) * (1 / (ln2 * ln2)))` for BINARY64_RECIP, `(((-LN64(p)) * n) / (ln2 * ln2))` for
BINARY64_DIV, `((m * ln2) / n)` for both, with `n` and `m` converted to binary64.  The grouping is log 16 and the signs
and ranges of LN64 are log 5, both DEDUCED. -/
def Obligations.Binary64SizingForms : Prop :=
  ∀ (n : Nat) (pb : Word), 1 ≤ n → errorRateLegal pb = true →
    ∃ negLn ln2 pop product square : ℚ,
      binary64Value (Config.ln64 pb) = some (-negLn) ∧ 0 < negLn ∧
      binary64Value (Config.ln64 0x4000000000000000) = some ln2 ∧ 0 < ln2 ∧
      NearestBinary64 n pop ∧ NearestBinary64 (negLn * pop) product ∧ NearestBinary64 (ln2 * ln2) square ∧
      (∃ reciprocal size, NearestBinary64 (1 / square) reciprocal ∧ NearestBinary64 (product * reciprocal) size ∧
        (sizeBits .binary64Recip n pb : ℤ) = ⌈size⌉) ∧
      (∃ size, NearestBinary64 (product / square) size ∧ (sizeBits .binary64Div n pb : ℤ) = ⌈size⌉) ∧
      ∀ (mode : SizingMode) (m : Nat), mode ≠ .exact → 1 ≤ m →
        ∃ filter scaled quotient, NearestBinary64 m filter ∧ NearestBinary64 (filter * ln2) scaled ∧
          NearestBinary64 (scaled / pop) quotient ∧ (sizedHashCount mode m n : ℤ) = ⌊quotient⌋

/-! ### Bloom commands -/

/-- R141, R145: BINIT's effect in every mode, and its faults in order: POPULATION, ERRORRATE, SIZE.  That HASHCOUNT
is the whole of `k` is deduced from R144 (log 18); in the binary64 modes it rests on the range the model gives LN64
(log 5, DEDUCED). -/
def Obligations.BinitResult : Prop :=
  decode 0x0000000000000011 = .ok .binit ∧
  ∀ s : State, s.err = false →
    (1 ≤ s.arg0.toNat → 1 ≤ s.arg1.toNat → s.arg1.toNat ≤ 0x3FEFFFFFFFFFFFFF →
      sizeBits s.params.sizingMode s.arg0.toNat s.arg1 ≤ s.params.maxCapacityBits.toNat →
      ∃ m cap k, exec .binit s =
          .next { s with store := m, capacity := cap, hashCount := k, mode := .bloom } ∧
        cap.toNat = sizeBits s.params.sizingMode s.arg0.toNat s.arg1 ∧
        k.toNat = sizedHashCount s.params.sizingMode cap.toNat s.arg0.toNat ∧
        ∀ i, m.bit i =
          if i / blockBits s.params.blockWidth <
            (cap.toNat + (blockBits s.params.blockWidth - 1)) / blockBits s.params.blockWidth
          then false else s.store.bit i) ∧
    (s.arg0.toNat = 0 → exec .binit s = .next { s with err := true, errCode := 5, errOp := 0x11 }) ∧
    (1 ≤ s.arg0.toNat → ¬(1 ≤ s.arg1.toNat ∧ s.arg1.toNat ≤ 0x3FEFFFFFFFFFFFFF) →
      exec .binit s = .next { s with err := true, errCode := 6, errOp := 0x11 }) ∧
    (1 ≤ s.arg0.toNat → 1 ≤ s.arg1.toNat → s.arg1.toNat ≤ 0x3FEFFFFFFFFFFFFF →
      s.params.maxCapacityBits.toNat < sizeBits s.params.sizingMode s.arg0.toNat s.arg1 →
      exec .binit s = .next { s with err := true, errCode := 7, errOp := 0x11 })

/-- R141, R149: BSIZE writes `m` and `k` to RESULT and RESULT1 and changes nothing else, in every mode; its faults
in order: POPULATION, ERRORRATE, SIZE.  That RESULT1 is the whole of `k` is deduced from R144 (log 18); in the binary64
modes it rests on the range the model gives LN64 (log 5, DEDUCED). -/
def Obligations.BsizeResult : Prop :=
  decode 0x0000000000000014 = .ok .bsize ∧
  ∀ s : State, s.err = false →
    (1 ≤ s.arg0.toNat → 1 ≤ s.arg1.toNat → s.arg1.toNat ≤ 0x3FEFFFFFFFFFFFFF →
      sizeBits s.params.sizingMode s.arg0.toNat s.arg1 ≤ 2 ^ 64 - 1 →
      ∃ m k, exec .bsize s = .next { s with result := m, result1 := k } ∧
        m.toNat = sizeBits s.params.sizingMode s.arg0.toNat s.arg1 ∧
        k.toNat = sizedHashCount s.params.sizingMode m.toNat s.arg0.toNat) ∧
    (s.arg0.toNat = 0 → exec .bsize s = .next { s with err := true, errCode := 5, errOp := 0x14 }) ∧
    (1 ≤ s.arg0.toNat → ¬(1 ≤ s.arg1.toNat ∧ s.arg1.toNat ≤ 0x3FEFFFFFFFFFFFFF) →
      exec .bsize s = .next { s with err := true, errCode := 6, errOp := 0x14 }) ∧
    (1 ≤ s.arg0.toNat → 1 ≤ s.arg1.toNat → s.arg1.toNat ≤ 0x3FEFFFFFFFFFFFFF →
      2 ^ 64 - 1 < sizeBits s.params.sizingMode s.arg0.toNat s.arg1 →
      exec .bsize s = .next { s with err := true, errCode := 7, errOp := 0x14 })

/-- R140 through BSIZE in mode EXACT: RESULT is the ceiling of the real `-ln(p) * n / ln(2)^2` and RESULT1 the floor of
the real `m * ln(2) / n`; a size above 2^64 - 1 faults SIZE. -/
def Obligations.BsizeExactFormulas : Prop :=
  ∀ (s : State) (p : ℚ), s.err = false → s.params.sizingMode = .exact → 1 ≤ s.arg0.toNat →
    binary64Value s.arg1 = some p → 0 < p → p < 1 →
    (⌈-Real.log (p : ℝ) * s.arg0.toNat / Real.log 2 ^ 2⌉ ≤ 2 ^ 64 - 1 →
      ∃ m k, exec .bsize s = .next { s with result := m, result1 := k } ∧
        (m.toNat : ℤ) = ⌈-Real.log (p : ℝ) * s.arg0.toNat / Real.log 2 ^ 2⌉ ∧
        (k.toNat : ℤ) = ⌊(m.toNat : ℝ) * Real.log 2 / s.arg0.toNat⌋) ∧
    (2 ^ 64 - 1 < ⌈-Real.log (p : ℝ) * s.arg0.toNat / Real.log 2 ^ 2⌉ →
      exec .bsize s = .next { s with err := true, errCode := 7, errOp := 0x14 })

/-- R146: position number `hf` of the hash in ARG0, from the mixer and its constants, below the filter's size. -/
def Obligations.BloomPositions : Prop :=
  ∀ (s : State) (hf : Nat), 1 ≤ s.capacity.toNat →
    hashPosition s hf =
      (Config.mix (Config.mix (s.params.hfSeedBase + BitVec.ofNat 64 hf) + s.params.golden + s.arg0)).toNat %
        s.capacity.toNat ∧
    hashPosition s hf < s.capacity.toNat

/-- R147: BINS sets the store bits at the `k` positions of the hash, and changes no other bit. -/
def Obligations.BinsResult : Prop :=
  decode 0x0000000000000012 = .ok .bins ∧
  (∀ s : State, s.err = false → s.mode ≠ .bloom →
    exec .bins s = .next { s with err := true, errCode := 2, errOp := 0x12 }) ∧
  ∀ s : State, s.err = false → s.mode = .bloom →
    ∃ m, exec .bins s = .next { s with store := m } ∧
      ∀ i, m.bit i = true ↔ s.store.bit i = true ∨ ∃ hf, hf < s.hashCount.toNat ∧ hashPosition s hf = i

/-- R148: BLOOK answers in RESULT whether the store bits at all `k` positions of the hash are 1. -/
def Obligations.BlookResult : Prop :=
  decode 0x0000000000000013 = .ok .blook ∧
  (∀ s : State, s.err = false → s.mode ≠ .bloom →
    exec .blook s = .next { s with err := true, errCode := 2, errOp := 0x13 }) ∧
  ∀ s : State, s.err = false → s.mode = .bloom →
    ((∀ hf, hf < s.hashCount.toNat → s.store.bit (hashPosition s hf) = true) →
      exec .blook s = .next { s with result := 1 }) ∧
    ((∃ hf, hf < s.hashCount.toNat ∧ s.store.bit (hashPosition s hf) = false) →
      exec .blook s = .next { s with result := 0 })

/-- R151: with `k = 0` an insert changes nothing and every hash is reported present. -/
def Obligations.EmptyHashCount : Prop :=
  ∀ s : State, s.err = false → s.mode = .bloom → s.hashCount = 0 →
    exec .bins s = .next s ∧ exec .blook s = .next { s with result := 1 }

/-- R152 (a): after BINS of a hash, whatever accesses follow without a VINIT, a BINIT or a reset, BLOOK of that
hash answers 1. -/
def Obligations.NoFalseNegatives : Prop :=
  ∀ (s : State) (accesses : List HostAccess), s.err = false → s.mode = .bloom →
    (∀ a ∈ accesses, a.mayConstruct s.params = false) →
    ∃ t, exec .bins s = .next t ∧ t.err = false ∧
      ∀ u, performAll accesses t = .next u → u.err = false → u.arg0 = s.arg0 →
        ∃ v, exec .blook u = .next v ∧ v.err = false ∧ v.result = 1

/-- R152 (b), (e): the filter after a sequence of inserts depends only on which hashes were inserted, not on their
order or on repetitions; the canonical form makes the stores equal data. -/
def Obligations.InsertOrderIrrelevant : Prop :=
  ∀ (s : State) (hs hs' : List Word), s.err = false → s.mode = .bloom → (∀ h, h ∈ hs ↔ h ∈ hs') →
    ∃ t t', performAll (hs.flatMap fun h => (Pseudo.bins h).expand) s = .next t ∧
      performAll (hs'.flatMap fun h => (Pseudo.bins h).expand) s = .next t' ∧
      (∀ i, t.store.bit i = t'.store.bit i) ∧ (s.store.wf = true → t.store = t'.store)

/-- R152 (c), (d), R41: in BLOOM mode no access but a construction or a reset clears a store bit, changes the
filter's size or count, or leaves the mode; BLOOK writes only RESULT. -/
def Obligations.BloomStoreMonotone : Prop :=
  (∀ (a : HostAccess) (s t : State), perform a s = .next t → s.mode = .bloom →
    a.mayConstruct s.params = false →
    t.mode = .bloom ∧ t.capacity = s.capacity ∧ t.hashCount = s.hashCount ∧
      ∀ i, s.store.bit i = true → t.store.bit i = true) ∧
  ∀ s t : State, exec .blook s = .next t → t.err = false → t = { s with result := t.result }

/-! ### The machine as a whole -/

/-- R41, R34, R35: the invariant holds after reset, for every instance with legal parameters. -/
def Obligations.InvariantAtReset : Prop :=
  (∀ p : Params, p.wf = true → (State.resetWith p).Inv) ∧ State.reset.Inv

/-- R41, R34, R35: every step keeps the invariant.  That BINIT leaves CAPACITY at least 1 rests in the binary64 modes on
the range the model gives LN64 (log 5, DEDUCED); the clauses on the store's canonical form and on what is zeroed speak
of counters of the model's own (log 10). -/
def Obligations.InvariantKept : Prop :=
  ∀ s t : State, s.Inv → step s = .next t → t.Inv

/-- R33, R54, R58: a step performs the first pending access on the state without it; with none pending nothing
changes (log 2).  A legal command word written to CMD runs its command, and `withFetchWord` places it so. -/
def Obligations.StepRunsTheDecodedCommand : Prop :=
  (∀ (s : State) (c : Word) (i : Instr) (rest : List HostAccess), decode c = .ok i →
    s.pending = .write 2 c :: rest → step s = exec i { s with pending := rest }) ∧
  (∀ (s : State) (a : HostAccess) (rest : List HostAccess), s.pending = a :: rest →
    step s = perform a { s with pending := rest }) ∧
  (∀ s : State, s.pending = [] → step s = .next s) ∧
  ∀ (s : State) (i : Instr), step (s.withFetchWord 64 (encode i).toNat) = exec i s

/-- R82: what the expansion of each pseudo-instruction does: the ARG writes, then the command. -/
def Obligations.PseudoInstructions : Prop :=
  ∀ (s : State) (a b c : Word) (v : Bool),
    performAll (Pseudo.vinit a).expand s = exec .vinit { s with arg0 := a } ∧
    performAll (Pseudo.vget a).expand s = exec .vget { s with arg0 := a } ∧
    performAll (Pseudo.vset a v).expand s = exec (.vset v) { s with arg0 := a } ∧
    performAll (Pseudo.vgetf a b).expand s = exec .vgetf { s with arg0 := a, arg1 := b } ∧
    performAll (Pseudo.vsetf a b c).expand s = exec .vsetf { s with arg0 := a, arg1 := b, arg2 := c } ∧
    performAll (Pseudo.vfill v).expand s = exec (.vfill v) s ∧
    performAll (Pseudo.binit a b).expand s = exec .binit { s with arg0 := a, arg1 := b } ∧
    performAll (Pseudo.bins a).expand s = exec .bins { s with arg0 := a } ∧
    performAll (Pseudo.blook a).expand s = exec .blook { s with arg0 := a } ∧
    performAll (Pseudo.bsize a b).expand s = exec .bsize { s with arg0 := a, arg1 := b } ∧
    performAll Pseudo.clrerr.expand s = .next { s with err := false, errCode := 0, errOp := 0 }

/-- R37, R59: however the accesses of an agent that only reads are interleaved with another agent's, the block ends
as it would without them.  The model keeps one list of replies and does not say whose read a reply answers (its choice,
log 12), so what is said of the replies is only this: those the other agent's reads would get alone are a subsequence
of those of the interleaving. -/
def Obligations.ReadingAgentIsHarmless : Prop :=
  ∀ (as bs cs : List HostAccess) (s t : State), Interleaves as bs cs → (∀ b ∈ bs, b.isRead = true) →
    performAll cs s = .next t →
    ∃ u, performAll as s = .next u ∧ t = { u with replies := t.replies } ∧ u.replies.Sublist t.replies
end

