-- ==== Sys2Proof/Laws/Memory.lean ====
section
/-! SUPPORT. The laws of the bit store: read after write, what each operation leaves alone, and the canonical form.
All but the canonical-form laws hold of every store, canonical or not. -/

namespace Sys2Proof.Machine

/-! ### Cells -/

theorem lookupCell_insertCell (a x : Nat) (b : Byte) (l : List Host.Cell) :
    lookupCell x (insertCell a b l) = if x = a then some b else lookupCell x l := by
  induction l with
  | nil => simp [insertCell, lookupCell, eq_comm]
  | cons c rest ih =>
    rw [insertCell]
    split
    · next hlt =>
      rw [lookupCell, lookupCell, ih]
      by_cases hx : c.1 = x
      · rw [if_pos hx, if_pos hx, if_neg (by omega)]
      · rw [if_neg hx, if_neg hx]
    · rw [lookupCell]
      by_cases hx : a = x
      · rw [if_pos hx, if_pos hx.symm]
      · rw [if_neg hx, if_neg (Ne.symm hx)]

theorem lookupCell_filter_ne (a x : Nat) (l : List Host.Cell) :
    lookupCell x (l.filter fun c => c.1 ≠ a) = if x = a then none else lookupCell x l := by
  induction l with
  | nil => simp [lookupCell]
  | cons c rest ih =>
    by_cases hc : c.1 = a
    · simp only [hc, ne_eq, not_true_eq_false, decide_false, Bool.false_eq_true, not_false_eq_true,
        List.filter_cons_of_neg, lookupCell] at ih ⊢
      rw [ih]
      split
      · rfl
      · rw [if_neg (by omega)]
    · simp only [ne_eq, hc, not_false_eq_true, decide_true, List.filter_cons_of_pos, lookupCell] at ih ⊢
      rw [ih]
      by_cases hx : c.1 = x
      · simp [hx, show x ≠ a by omega]
      · simp [hx]

theorem lookupCell_filter_ge (n x : Nat) (l : List Host.Cell) :
    lookupCell x (l.filter fun c => n ≤ c.1) = if x < n then none else lookupCell x l := by
  induction l with
  | nil => simp [lookupCell]
  | cons c rest ih =>
    by_cases hc : n ≤ c.1
    · simp only [hc, decide_true, List.filter_cons_of_pos, lookupCell, ih]
      by_cases hx : c.1 = x
      · simp [hx, show ¬ x < n by omega]
      · simp [hx]
    · simp only [hc, decide_false, Bool.false_eq_true, not_false_eq_true, List.filter_cons_of_neg,
        lookupCell, ih]
      split
      · rfl
      · rw [if_neg (by omega)]

/-! ### Bytes -/

@[simp] theorem writeByte_zeroed (m : Memory) (a : Nat) (b : Byte) : (m.writeByte a b).zeroed = m.zeroed := rfl
@[simp] theorem writeByte_epoch (m : Memory) (a : Nat) (b : Byte) : (m.writeByte a b).epoch = m.epoch := rfl
@[simp] theorem writeByte_unlisted (m : Memory) (a : Nat) (b : Byte) (x : Nat) :
    (m.writeByte a b).unlisted x = m.unlisted x := rfl

/-- Read after write, on the written byte and on every other. -/
theorem readByte_writeByte (m : Memory) (a x : Nat) (b : Byte) :
    (m.writeByte a b).readByte x = if x = a then b else m.readByte x := by
  unfold Memory.readByte
  rw [writeByte_unlisted]
  unfold Memory.writeByte
  by_cases hb : b = m.unlisted a
  · simp only [if_pos hb, lookupCell_filter_ne]
    split
    · next hx => simp [hb, hx]
    · rfl
  · simp only [if_neg hb, lookupCell_insertCell, lookupCell_filter_ne]
    by_cases hx : x = a
    · simp [hx]
    · simp [hx]

theorem readByte_zeroBelow (m : Memory) (n x : Nat) :
    (m.zeroBelow n).readByte x = if x < n then 0 else m.readByte x := by
  unfold Memory.readByte Memory.zeroBelow Memory.unlisted
  simp only [lookupCell_filter_ge]
  by_cases hx : x < n
  · simp [hx]
  · simp [hx]

@[simp] theorem zeroBelow_zeroed (m : Memory) (n : Nat) : (m.zeroBelow n).zeroed = max m.zeroed n := rfl
@[simp] theorem zeroBelow_epoch (m : Memory) (n : Nat) : (m.zeroBelow n).epoch = m.epoch := rfl

theorem readByte_fillBelow (m : Memory) (b : Byte) (n x : Nat) :
    (m.fillBelow b n).readByte x = if x < n then b else m.readByte x := by
  induction n generalizing m with
  | zero => simp [Memory.fillBelow]
  | succ n ih =>
    simp only [Memory.fillBelow, ih, readByte_writeByte]
    by_cases h1 : x < n
    · simp [h1, show x < n + 1 by omega]
    · by_cases h2 : x = n
      · simp [h2]
      · simp [h1, h2, show ¬ x < n + 1 by omega]

@[simp] theorem fillBelow_zeroed (m : Memory) (b : Byte) (n : Nat) : (m.fillBelow b n).zeroed = m.zeroed := by
  induction n generalizing m with
  | zero => rfl
  | succ n ih => simp [Memory.fillBelow, ih]

/-! ### Bits -/

theorem getLsbD_setByteBit (b : Byte) (o t : Nat) (v : Bool) (ho : o < 8) (ht : t < 8) :
    (setByteBit b o v).getLsbD t = if t = o then v else b.getLsbD t := by
  unfold setByteBit
  by_cases h : t = o
  · subst h
    cases v <;> simp [ht]
  · have hone : (1#8 <<< o).getLsbD t = false := by
      simp only [BitVec.getLsbD_shiftLeft, ht, decide_true, Bool.true_and]
      by_cases hlt : t < o
      · simp [hlt]
      · simp [hlt, show t - o ≠ 0 by omega]
    rw [if_neg h]
    cases v
    · rw [if_neg (by decide), BitVec.getLsbD_and, BitVec.getLsbD_not, hone]
      simp [ht]
    · rw [if_pos rfl, BitVec.getLsbD_or, hone, Bool.or_false]

/-- Bit read after bit write, on the written bit and on every other. -/
theorem bit_setBit (m : Memory) (i j : Nat) (v : Bool) :
    (m.setBit i v).bit j = if j = i then v else m.bit j := by
  unfold Memory.bit Memory.setBit
  rw [readByte_writeByte]
  by_cases hq : j / 8 = i / 8
  · rw [if_pos hq, getLsbD_setByteBit _ _ _ _ (Nat.mod_lt _ (by decide)) (Nat.mod_lt _ (by decide)), hq]
    by_cases hr : j % 8 = i % 8
    · rw [if_pos hr, if_pos (by omega)]
    · rw [if_neg hr, if_neg (by intro h; exact hr (by rw [h]))]
  · rw [if_neg hq, if_neg (by intro h; exact hq (by rw [h]))]

/-- A bit write leaves every byte but its own alone. -/
theorem readByte_setBit_of_ne (m : Memory) (i : Nat) (v : Bool) (x : Nat) (hx : x ≠ i / 8) :
    (m.setBit i v).readByte x = m.readByte x := by
  unfold Memory.setBit
  rw [readByte_writeByte, if_neg hx]

@[simp] theorem setBit_zeroed (m : Memory) (i : Nat) (v : Bool) : (m.setBit i v).zeroed = m.zeroed := rfl
@[simp] theorem setBit_epoch (m : Memory) (i : Nat) (v : Bool) : (m.setBit i v).epoch = m.epoch := rfl

/-- `MemRead` bit by bit (R20). -/
theorem getLsbD_memRead (m : Memory) (i n t : Nat) :
    (memRead m i n).getLsbD t = (decide (t < n) && m.bit (i + t)) := by
  induction n with
  | zero => simp [memRead]
  | succ n ih =>
    rw [memRead, BitVec.getLsbD_cons, ih]
    by_cases h : t = n
    · subst h; simp
    · rw [if_neg h]
      by_cases h1 : t < n
      · simp [h1, show t < n + 1 by omega]
      · simp [h1, show ¬ t < n + 1 by omega]

/-- `MemWrite` bit by bit (R20). -/
theorem bit_memWrite (m : Memory) (i n : Nat) (v : Word) (j : Nat) :
    (memWrite m i n v).bit j = if i ≤ j ∧ j < i + n then v.getLsbD (j - i) else m.bit j := by
  induction n with
  | zero => rw [memWrite, if_neg (by omega)]
  | succ n ih =>
    rw [memWrite, bit_setBit, ih]
    by_cases h : j = i + n
    · rw [if_pos h, if_pos (by omega), h]
      congr 1
      omega
    · rw [if_neg h]
      by_cases h1 : i ≤ j ∧ j < i + n
      · rw [if_pos h1, if_pos (by omega)]
      · rw [if_neg h1, if_neg (by omega)]

/-- `MemWrite` leaves every byte alone that holds none of its bits. -/
theorem readByte_memWrite_of_outside (m : Memory) (i n : Nat) (v : Word) (x : Nat)
    (hx : ∀ t, t < n → x ≠ (i + t) / 8) : (memWrite m i n v).readByte x = m.readByte x := by
  induction n with
  | zero => rfl
  | succ n ih =>
    rw [memWrite, readByte_setBit_of_ne _ _ _ _ (hx n (by omega))]
    exact ih fun t ht => hx t (by omega)

@[simp] theorem memWrite_zeroed (m : Memory) (i n : Nat) (v : Word) : (memWrite m i n v).zeroed = m.zeroed := by
  induction n with
  | zero => rfl
  | succ n ih => rw [memWrite, setBit_zeroed, ih]

theorem bit_zeroBelow (m : Memory) (n i : Nat) :
    (m.zeroBelow n).bit i = if i / 8 < n then false else m.bit i := by
  unfold Memory.bit
  rw [readByte_zeroBelow]
  split <;> simp

theorem readByte_setAllBelow (m : Memory) (n x : Nat) (v : Bool) :
    (m.setAllBelow n v).readByte x = if x < n then (if v then 0xFF else 0) else m.readByte x := by
  unfold Memory.setAllBelow
  cases v
  · simp [readByte_zeroBelow]
  · simp [readByte_fillBelow]

theorem bit_setAllBelow (m : Memory) (n i : Nat) (v : Bool) :
    (m.setAllBelow n v).bit i = if i / 8 < n then v else m.bit i := by
  unfold Memory.bit
  rw [readByte_setAllBelow]
  have h8 : i % 8 < 8 := Nat.mod_lt _ (by decide)
  have hall : ∀ t, t < 8 → BitVec.getLsbD (0xFF : Byte) t = true := by decide
  split
  · cases v
    · simp
    · simpa using hall _ h8
  · rfl

theorem bit_setPositions (m : Memory) (pos : Nat → Nat) (k i : Nat) :
    (m.setPositions pos k).bit i = true ↔ m.bit i = true ∨ ∃ hf, hf < k ∧ pos hf = i := by
  induction k with
  | zero => simp [Memory.setPositions]
  | succ k ih =>
    rw [Memory.setPositions, bit_setBit]
    by_cases h : i = pos k
    · simp only [h, if_true, true_iff]
      exact .inr ⟨k, by omega, rfl⟩
    · rw [if_neg h, ih]
      constructor
      · rintro (hm | ⟨hf, hlt, he⟩)
        · exact .inl hm
        · exact .inr ⟨hf, by omega, he⟩
      · rintro (hm | ⟨hf, hlt, he⟩)
        · exact .inl hm
        · refine .inr ⟨hf, ?_, he⟩
          rcases Nat.lt_succ_iff_lt_or_eq.mp hlt with h1 | h1
          · exact h1
          · exact absurd (h1 ▸ he).symm h

@[simp] theorem setPositions_zeroed (m : Memory) (pos : Nat → Nat) (k : Nat) :
    (m.setPositions pos k).zeroed = m.zeroed := by
  induction k with
  | zero => rfl
  | succ k ih => rw [Memory.setPositions, setBit_zeroed, ih]

theorem readByte_setPositions_of_outside (m : Memory) (pos : Nat → Nat) (k x : Nat)
    (hx : ∀ hf, hf < k → x ≠ pos hf / 8) : (m.setPositions pos k).readByte x = m.readByte x := by
  induction k with
  | zero => rfl
  | succ k ih =>
    rw [Memory.setPositions, readByte_setBit_of_ne _ _ _ _ (hx k (by omega))]
    exact ih fun hf h => hx hf (by omega)

theorem allSet_iff (m : Memory) (pos : Nat → Nat) (k : Nat) :
    m.allSet pos k = true ↔ ∀ hf, hf < k → m.bit (pos hf) = true := by
  induction k with
  | zero => simp [Memory.allSet]
  | succ k ih =>
    rw [Memory.allSet, Bool.and_eq_true, ih]
    constructor
    · rintro ⟨h1, h2⟩ hf hlt
      rcases Nat.lt_succ_iff_lt_or_eq.mp hlt with h | h
      · exact h1 hf h
      · exact h ▸ h2
    · exact fun h => ⟨fun hf hlt => h hf (by omega), h k (by omega)⟩

/-! ### The canonical form -/

theorem wf_iff (m : Memory) : m.wf = true ↔
    (m.cells.Pairwise fun c d => c.1 < d.1) ∧ ∀ c ∈ m.cells, c.2 ≠ m.unlisted c.1 := by
  simp [Memory.wf]

theorem mem_insertCell (a : Nat) (b : Byte) (l : List Host.Cell) (c : Host.Cell) :
    c ∈ insertCell a b l ↔ c = (a, b) ∨ c ∈ l := by
  induction l with
  | nil => simp [insertCell]
  | cons d rest ih =>
    rw [insertCell]
    split
    · simp only [List.mem_cons, ih]
      tauto
    · simp

theorem insertCell_rising (a : Nat) (b : Byte) (l : List Host.Cell)
    (hl : l.Pairwise fun c d => c.1 < d.1) (ha : ∀ c ∈ l, c.1 ≠ a) :
    (insertCell a b l).Pairwise fun c d => c.1 < d.1 := by
  induction l with
  | nil => simp [insertCell]
  | cons d rest ih =>
    rw [List.pairwise_cons] at hl
    rw [insertCell]
    split
    · next hd =>
      rw [List.pairwise_cons]
      refine ⟨fun c hc => ?_, ih hl.2 fun c hc => ha c (List.mem_cons_of_mem _ hc)⟩
      rcases (mem_insertCell a b rest c).mp hc with rfl | hc
      · exact hd
      · exact hl.1 c hc
    · next hd =>
      have hda : a < d.1 := by have := ha d List.mem_cons_self; omega
      rw [List.pairwise_cons]
      refine ⟨fun c hc => ?_, List.pairwise_cons.mpr hl⟩
      rcases List.mem_cons.mp hc with rfl | hc
      · exact hda
      · exact lt_trans hda (hl.1 c hc)

theorem mem_writeByte (m : Memory) (a : Nat) (b : Byte) (c : Host.Cell) (hc : c ∈ (m.writeByte a b).cells) :
    (c = (a, b) ∧ b ≠ m.unlisted a) ∨ c ∈ m.cells := by
  unfold Memory.writeByte at hc
  by_cases hb : b = m.unlisted a
  · simp only [if_pos hb, List.mem_filter] at hc
    exact .inr hc.1
  · simp only [if_neg hb, mem_insertCell, List.mem_filter] at hc
    rcases hc with h | h
    · exact .inl ⟨h, hb⟩
    · exact .inr h.1

/-- A write keeps the canonical form. -/
theorem writeByte_wf (m : Memory) (a : Nat) (b : Byte) (h : m.wf = true) : (m.writeByte a b).wf = true := by
  rw [wf_iff] at h ⊢
  refine ⟨?_, fun c hc => ?_⟩
  · unfold Memory.writeByte
    have hr := h.1.filter (fun c => decide (c.1 ≠ a))
    dsimp only
    split
    · exact hr
    · exact insertCell_rising _ _ _ hr fun c hc => by simpa using (List.mem_filter.mp hc).2
  · rw [writeByte_unlisted]
    rcases mem_writeByte m a b c hc with ⟨rfl, hb⟩ | hc
    · exact hb
    · exact h.2 c hc

theorem setBit_wf (m : Memory) (i : Nat) (v : Bool) (h : m.wf = true) : (m.setBit i v).wf = true :=
  writeByte_wf _ _ _ h

theorem memWrite_wf (m : Memory) (i n : Nat) (v : Word) (h : m.wf = true) : (memWrite m i n v).wf = true := by
  induction n with
  | zero => exact h
  | succ n ih => exact setBit_wf _ _ _ ih

theorem zeroBelow_wf (m : Memory) (n : Nat) (h : m.wf = true) : (m.zeroBelow n).wf = true := by
  rw [wf_iff] at h ⊢
  refine ⟨h.1.filter _, fun c hc => ?_⟩
  have hc' : c ∈ m.cells ∧ n ≤ c.1 := by simpa [Memory.zeroBelow] using hc
  have hu : (m.zeroBelow n).unlisted c.1 = m.unlisted c.1 := by
    unfold Memory.unlisted
    simp [show ¬ c.1 < n by omega]
  rw [hu]
  exact h.2 c hc'.1

theorem fillBelow_wf (m : Memory) (b : Byte) (n : Nat) (h : m.wf = true) : (m.fillBelow b n).wf = true := by
  induction n generalizing m with
  | zero => exact h
  | succ n ih => exact ih _ (writeByte_wf _ _ _ h)

theorem setAllBelow_wf (m : Memory) (n : Nat) (v : Bool) (h : m.wf = true) : (m.setAllBelow n v).wf = true := by
  unfold Memory.setAllBelow
  split
  · exact fillBelow_wf _ _ _ h
  · exact zeroBelow_wf _ _ h

theorem setPositions_wf (m : Memory) (pos : Nat → Nat) (k : Nat) (h : m.wf = true) :
    (m.setPositions pos k).wf = true := by
  induction k with
  | zero => exact h
  | succ k ih => exact setBit_wf _ _ _ ih

/-- The store after reset has the canonical form: nothing is listed. -/
theorem reset_store_wf : State.reset.store.wf = true := rfl

/-- Canonical stores that were zeroed alike and read alike are equal data. -/
theorem eq_of_readByte_eq (m n : Memory) (hm : m.wf = true) (hn : n.wf = true) (hz : m.zeroed = n.zeroed)
    (he : m.epoch = n.epoch) (h : ∀ a, m.readByte a = n.readByte a) : m = n := by
  have hu : ∀ a, m.unlisted a = n.unlisted a := fun a => by unfold Memory.unlisted; rw [hz, he]
  rw [wf_iff] at hm hn
  have find : ∀ (l : List Host.Cell), (l.Pairwise fun c d => c.1 < d.1) → ∀ c : Host.Cell,
      c ∈ l ↔ lookupCell c.1 l = some c.2 := by
    intro l hl
    induction l with
    | nil => simp [lookupCell]
    | cons d rest ih =>
      intro c
      rw [List.pairwise_cons] at hl
      rw [List.mem_cons, lookupCell, ih hl.2 c]
      by_cases hd : d.1 = c.1
      · rw [if_pos hd]
        constructor
        · rintro (rfl | hc)
          · rfl
          · have := hl.1 c ((ih hl.2 c).mpr hc)
            omega
        · intro hs
          exact .inl (Prod.ext hd.symm (Option.some.inj hs).symm)
      · rw [if_neg hd]
        constructor
        · rintro (rfl | hc)
          · exact absurd rfl hd
          · exact hc
        · exact .inr
  have look : ∀ (p q : Memory), (∀ a, p.unlisted a = q.unlisted a) → (∀ a, p.readByte a = q.readByte a) →
      (p.cells.Pairwise fun c d => c.1 < d.1) → (∀ c ∈ p.cells, c.2 ≠ p.unlisted c.1) →
      (q.cells.Pairwise fun c d => c.1 < d.1) → ∀ c ∈ p.cells, c ∈ q.cells := by
    intro p q hpq hr hps hpu hqs c hc
    have hl := (find _ hps c).mp hc
    have hb := hr c.1
    unfold Memory.readByte at hb
    rw [hl, Option.getD_some] at hb
    rw [find _ hqs c]
    cases hq : lookupCell c.1 q.cells with
    | none => rw [hq, Option.getD_none, ← hpq] at hb; exact absurd hb (hpu c hc)
    | some v => rw [hq, Option.getD_some] at hb; rw [hb]
  have hcells : m.cells = n.cells := by
    have hmn := look m n hu h hm.1 hm.2 hn.1
    have hnm := look n m (fun a => (hu a).symm) (fun a => (h a).symm) hn.1 hn.2 hm.1
    have hperm : m.cells.Perm n.cells :=
      (List.perm_ext_iff_of_nodup (hm.1.imp fun h e => by rw [e] at h; exact lt_irrefl _ h)
        (hn.1.imp fun h e => by rw [e] at h; exact lt_irrefl _ h)).mpr fun c => ⟨hmn c, hnm c⟩
    exact hperm.eq_of_pairwise (fun a b _ _ h1 h2 => absurd (lt_trans h1 h2) (lt_irrefl _)) hm.1 hn.1
  cases m
  cases n
  simp_all

/-! ### Which addresses the operations list

A write below `zeroed` lists nothing at or above it: what `State.Inv.cells_zeroed` needs of each operation. -/

theorem writeByte_cells_lt {m : Memory} {a : Nat} {b : Byte} (h : ∀ c ∈ m.cells, c.1 < m.zeroed)
    (ha : a < m.zeroed) : ∀ c ∈ (m.writeByte a b).cells, c.1 < (m.writeByte a b).zeroed := fun c hc => by
  rcases mem_writeByte _ _ _ _ hc with ⟨rfl, _⟩ | h'
  · exact ha
  · exact h c h'

theorem setBit_cells_lt {m : Memory} {i : Nat} {v : Bool} (h : ∀ c ∈ m.cells, c.1 < m.zeroed)
    (hi : i / 8 < m.zeroed) : ∀ c ∈ (m.setBit i v).cells, c.1 < (m.setBit i v).zeroed :=
  writeByte_cells_lt h hi

theorem memWrite_cells_lt {m : Memory} {i n : Nat} {v : Word} (h : ∀ c ∈ m.cells, c.1 < m.zeroed)
    (hi : ∀ t, t < n → (i + t) / 8 < m.zeroed) :
    ∀ c ∈ (memWrite m i n v).cells, c.1 < (memWrite m i n v).zeroed := by
  induction n with
  | zero => exact h
  | succ n ih => exact setBit_cells_lt (ih fun t ht => hi t (by omega)) (by simpa using hi n (by omega))

theorem zeroBelow_cells_lt {m : Memory} {n : Nat} (h : ∀ c ∈ m.cells, c.1 < m.zeroed) :
    ∀ c ∈ (m.zeroBelow n).cells, c.1 < (m.zeroBelow n).zeroed := fun c hc => by
  have hm : c ∈ m.cells ∧ n ≤ c.1 := by simpa [Memory.zeroBelow] using hc
  exact lt_of_lt_of_le (h c hm.1) (le_max_left _ _)

theorem fillBelow_cells_lt {m : Memory} {b : Byte} {n : Nat} (h : ∀ c ∈ m.cells, c.1 < m.zeroed)
    (hn : n ≤ m.zeroed) : ∀ c ∈ (m.fillBelow b n).cells, c.1 < (m.fillBelow b n).zeroed := by
  induction n generalizing m with
  | zero => exact h
  | succ n ih => exact ih (writeByte_cells_lt h (by omega)) (by simp only [writeByte_zeroed]; omega)

theorem setPositions_cells_lt {m : Memory} {pos : Nat → Nat} {k : Nat} (h : ∀ c ∈ m.cells, c.1 < m.zeroed)
    (hp : ∀ hf, hf < k → pos hf / 8 < m.zeroed) :
    ∀ c ∈ (m.setPositions pos k).cells, c.1 < (m.setPositions pos k).zeroed := by
  induction k with
  | zero => exact h
  | succ k ih => exact setBit_cells_lt (ih fun t ht => hp t (by omega)) (by simpa using hp k (by omega))

end Sys2Proof.Machine
end

