-- ==== Sys2Proof/Laws/State.lean ====
section
/-! SUPPORT. What the shared state updates do to each field: fault entry, the clearing of a fault, reset. -/

namespace Sys2Proof.Machine

variable (s : State) (f : FaultCode) (op : BitVec 8) (p : Params)

@[simp] theorem raiseFault_params : (raiseFault f op s).params = s.params := rfl
@[simp] theorem raiseFault_err : (raiseFault f op s).err = true := rfl
@[simp] theorem raiseFault_errCode : (raiseFault f op s).errCode = f.code := rfl
@[simp] theorem raiseFault_errOp : (raiseFault f op s).errOp = op := rfl
@[simp] theorem raiseFault_mode : (raiseFault f op s).mode = s.mode := rfl
@[simp] theorem raiseFault_arg0 : (raiseFault f op s).arg0 = s.arg0 := rfl
@[simp] theorem raiseFault_arg1 : (raiseFault f op s).arg1 = s.arg1 := rfl
@[simp] theorem raiseFault_arg2 : (raiseFault f op s).arg2 = s.arg2 := rfl
@[simp] theorem raiseFault_result : (raiseFault f op s).result = s.result := rfl
@[simp] theorem raiseFault_result1 : (raiseFault f op s).result1 = s.result1 := rfl
@[simp] theorem raiseFault_capacity : (raiseFault f op s).capacity = s.capacity := rfl
@[simp] theorem raiseFault_hashCount : (raiseFault f op s).hashCount = s.hashCount := rfl
@[simp] theorem raiseFault_store : (raiseFault f op s).store = s.store := rfl
@[simp] theorem raiseFault_pending : (raiseFault f op s).pending = s.pending := rfl
@[simp] theorem raiseFault_replies : (raiseFault f op s).replies = s.replies := rfl

@[simp] theorem clearFault_params : (clearFault s).params = s.params := rfl
@[simp] theorem clearFault_err : (clearFault s).err = false := rfl
@[simp] theorem clearFault_errCode : (clearFault s).errCode = 0 := rfl
@[simp] theorem clearFault_errOp : (clearFault s).errOp = 0 := rfl
@[simp] theorem clearFault_mode : (clearFault s).mode = s.mode := rfl
@[simp] theorem clearFault_arg0 : (clearFault s).arg0 = s.arg0 := rfl
@[simp] theorem clearFault_arg1 : (clearFault s).arg1 = s.arg1 := rfl
@[simp] theorem clearFault_arg2 : (clearFault s).arg2 = s.arg2 := rfl
@[simp] theorem clearFault_result : (clearFault s).result = s.result := rfl
@[simp] theorem clearFault_result1 : (clearFault s).result1 = s.result1 := rfl
@[simp] theorem clearFault_capacity : (clearFault s).capacity = s.capacity := rfl
@[simp] theorem clearFault_hashCount : (clearFault s).hashCount = s.hashCount := rfl
@[simp] theorem clearFault_store : (clearFault s).store = s.store := rfl
@[simp] theorem clearFault_pending : (clearFault s).pending = s.pending := rfl
@[simp] theorem clearFault_replies : (clearFault s).replies = s.replies := rfl

@[simp] theorem resetBlock_params : (resetBlock s).params = s.params := rfl
@[simp] theorem resetBlock_err : (resetBlock s).err = false := rfl
@[simp] theorem resetBlock_errCode : (resetBlock s).errCode = 0 := rfl
@[simp] theorem resetBlock_errOp : (resetBlock s).errOp = 0 := rfl
@[simp] theorem resetBlock_mode : (resetBlock s).mode = .none := rfl
@[simp] theorem resetBlock_arg0 : (resetBlock s).arg0 = 0 := rfl
@[simp] theorem resetBlock_arg1 : (resetBlock s).arg1 = 0 := rfl
@[simp] theorem resetBlock_arg2 : (resetBlock s).arg2 = 0 := rfl
@[simp] theorem resetBlock_result : (resetBlock s).result = 0 := rfl
@[simp] theorem resetBlock_result1 : (resetBlock s).result1 = 0 := rfl
@[simp] theorem resetBlock_capacity : (resetBlock s).capacity = 0 := rfl
@[simp] theorem resetBlock_hashCount : (resetBlock s).hashCount = 0 := rfl
@[simp] theorem resetBlock_store :
    (resetBlock s).store = { cells := [], zeroed := 0, epoch := s.store.epoch + 1 } := rfl
@[simp] theorem resetBlock_pending : (resetBlock s).pending = s.pending := rfl
@[simp] theorem resetBlock_replies : (resetBlock s).replies = s.replies := rfl

@[simp] theorem resetWith_params : (State.resetWith p).params = p := rfl
@[simp] theorem resetWith_err : (State.resetWith p).err = false := rfl
@[simp] theorem resetWith_mode : (State.resetWith p).mode = .none := rfl
@[simp] theorem resetWith_capacity : (State.resetWith p).capacity = 0 := rfl
@[simp] theorem resetWith_store :
    (State.resetWith p).store = { cells := [], zeroed := 0, epoch := 0 } := rfl

end Sys2Proof.Machine
end

