-- ==== Sys2Proof/Laws/Command.lean ====
section
/-! SUPPORT. What a command can do (60_exceptions.md R180), said once, and what each command's rule answers. -/

namespace Sys2Proof.Machine

/-- The rule each command runs after the prologue. -/
def ruleOf : Instr → State → Except FaultCode State
  | .vinit => vinitRule
  | .vget => vgetRule
  | .vset v => vsetRule v
  | .vgetf => vgetfRule
  | .vsetf => vsetfRule
  | .vfill v => vfillRule v
  | .binit => binitRule
  | .bins => binsRule
  | .blook => blookRule
  | .bsize => bsizeRule

/-- Every meaning is its rule behind the one prologue. -/
theorem exec_eq_command (i : Instr) (s : State) : exec i s = command i (ruleOf i) s := by
  cases i <;> rfl

/-- A command always completes (R54, R221). -/
theorem command_next (i : Instr) (rule : State → Except FaultCode State) (s : State) :
    ∃ t, command i rule s = .next t := by
  unfold command
  split
  · exact ⟨_, rfl⟩
  · split
    · split <;> exact ⟨_, rfl⟩
    · exact ⟨_, rfl⟩

/-- The four ways a command completes: dropped, MODE fault, its rule's fault, its rule's effect. -/
theorem command_cases {i : Instr} {rule : State → Except FaultCode State} {s t : State}
    (h : command i rule s = .next t) :
    (s.err = true ∧ t = s) ∨
    (s.err = false ∧ legalIn i s.mode = false ∧ t = raiseFault .mode i.opcode s) ∨
    (s.err = false ∧ legalIn i s.mode = true ∧ ∃ f, rule s = .error f ∧ t = raiseFault f i.opcode s) ∨
    (s.err = false ∧ legalIn i s.mode = true ∧ rule s = .ok t) := by
  unfold command at h
  split at h
  · next he => exact .inl ⟨he, by injection h with h; exact h.symm⟩
  · next he =>
    have he : s.err = false := by simpa using he
    split at h
    · next hl =>
      split at h
      · next u hr =>
        injection h with h
        exact .inr (.inr (.inr ⟨he, hl, h ▸ hr⟩))
      · next f hr =>
        injection h with h
        exact .inr (.inr (.inl ⟨he, hl, f, hr, h.symm⟩))
    · next hl =>
      injection h with h
      exact .inr (.inl ⟨he, by simpa using hl, h.symm⟩)

theorem exec_cases {i : Instr} {s t : State} (h : exec i s = .next t) :
    (s.err = true ∧ t = s) ∨
    (s.err = false ∧ legalIn i s.mode = false ∧ t = raiseFault .mode i.opcode s) ∨
    (s.err = false ∧ legalIn i s.mode = true ∧ ∃ f, ruleOf i s = .error f ∧ t = raiseFault f i.opcode s) ∨
    (s.err = false ∧ legalIn i s.mode = true ∧ ruleOf i s = .ok t) :=
  command_cases (exec_eq_command i s ▸ h)

/-- While ERR = 1 a command changes nothing. -/
theorem exec_of_err {i : Instr} {s : State} (he : s.err = true) : exec i s = .next s := by
  rw [exec_eq_command, command, if_pos he]

/-- A command MODE does not allow enters the MODE fault. -/
theorem exec_of_illegalMode {i : Instr} {s : State} (he : s.err = false) (hl : legalIn i s.mode = false) :
    exec i s = .next (raiseFault .mode i.opcode s) := by
  rw [exec_eq_command, command, if_neg (by simp [he]), if_neg (by simp [hl])]

/-- A command whose rule succeeds has its rule's effect. -/
theorem exec_of_ok {i : Instr} {s t : State} (he : s.err = false) (hl : legalIn i s.mode = true)
    (hr : ruleOf i s = .ok t) : exec i s = .next t := by
  rw [exec_eq_command, command, if_neg (by simp [he]), if_pos hl, hr]

/-- A command whose rule faults enters that fault. -/
theorem exec_of_error {i : Instr} {s : State} {f : FaultCode} (he : s.err = false)
    (hl : legalIn i s.mode = true) (hr : ruleOf i s = .error f) :
    exec i s = .next (raiseFault f i.opcode s) := by
  rw [exec_eq_command, command, if_neg (by simp [he]), if_pos hl, hr]

/-! ### What the rules answer -/

theorem vinitRule_ok {s t : State} (h : vinitRule s = .ok t) :
    s.arg0.toNat ≤ s.params.maxCapacityBits.toNat ∧
    t = { s with
      store := s.store.zeroBelow (bytesInUse s.params s.arg0.toNat)
      capacity := s.arg0
      hashCount := 0
      mode := .vector } := by
  unfold vinitRule sizeOperand at h
  split at h
  · cases h
  · injection h with h
    exact ⟨by omega, h.symm⟩

theorem indexFault_none {s : State} (h : indexFault s = none) : s.arg0.toNat < s.capacity.toNat := by
  unfold indexFault bitIndex capacityBits at h
  split at h
  · cases h
  · omega

theorem fieldFault_none {s : State} (h : fieldFault s = none) :
    1 ≤ fieldLength s ∧ s.arg0.toNat + fieldLength s ≤ s.capacity.toNat := by
  unfold fieldFault bitIndex capacityBits at h
  split at h
  · cases h
  · split at h
    · cases h
    · omega

theorem fieldLength_le (s : State) : fieldLength s ≤ 64 := Nat.min_le_right _ _

theorem sizingFault_none {s : State} (h : sizingFault s = none) :
    1 ≤ s.arg0.toNat ∧ errorRateLegal s.arg1 = true := by
  unfold sizingFault sizeOperand at h
  split at h
  · cases h
  · split at h
    · exact ⟨by omega, by assumption⟩
    · cases h

theorem indexFault_of_lt {s : State} (h : s.arg0.toNat < s.capacity.toNat) : indexFault s = none := by
  unfold indexFault bitIndex capacityBits
  rw [if_neg (by omega)]

theorem indexFault_of_le {s : State} (h : s.capacity.toNat ≤ s.arg0.toNat) : indexFault s = some .index := by
  unfold indexFault bitIndex capacityBits
  rw [if_pos h]

theorem fieldFault_of_inside {s : State} (h1 : 1 ≤ s.arg1.toNat)
    (h2 : s.arg0.toNat + min s.arg1.toNat 64 ≤ s.capacity.toNat) : fieldFault s = none := by
  unfold fieldFault fieldLength bitIndex capacityBits
  rw [if_neg (by omega), if_neg (by omega)]

theorem fieldFault_of_zero {s : State} (h : s.arg1.toNat = 0) : fieldFault s = some .length := by
  unfold fieldFault fieldLength
  rw [if_pos (by omega)]

theorem fieldFault_of_past {s : State} (h1 : 1 ≤ s.arg1.toNat)
    (h2 : s.capacity.toNat < s.arg0.toNat + min s.arg1.toNat 64) : fieldFault s = some .index := by
  unfold fieldFault fieldLength bitIndex capacityBits
  rw [if_neg (by omega), if_pos h2]

theorem errorRateLegal_iff (pb : Word) :
    errorRateLegal pb = true ↔ 1 ≤ pb.toNat ∧ pb.toNat ≤ 0x3FEFFFFFFFFFFFFF := by
  simp [errorRateLegal]

theorem sizingFault_of_legal {s : State} (h1 : 1 ≤ s.arg0.toNat) (h2 : errorRateLegal s.arg1 = true) :
    sizingFault s = none := by
  unfold sizingFault sizeOperand
  rw [if_neg (by omega), if_pos h2]

theorem sizingFault_of_zero {s : State} (h : s.arg0.toNat = 0) : sizingFault s = some .population := by
  unfold sizingFault sizeOperand
  rw [if_pos h]

theorem sizingFault_of_illegal {s : State} (h1 : 1 ≤ s.arg0.toNat) (h2 : errorRateLegal s.arg1 = false) :
    sizingFault s = some .errorRate := by
  unfold sizingFault sizeOperand
  rw [if_neg (by omega), if_neg (by simp [h2])]

theorem vgetRule_ok {s t : State} (h : vgetRule s = .ok t) :
    s.arg0.toNat < s.capacity.toNat ∧
    t = { s with result := (memRead s.store s.arg0.toNat 1).setWidth 64 } := by
  unfold vgetRule at h
  split at h
  · cases h
  · next hn => injection h with h; exact ⟨indexFault_none hn, h.symm⟩

theorem vsetRule_ok {v : Bool} {s t : State} (h : vsetRule v s = .ok t) :
    s.arg0.toNat < s.capacity.toNat ∧
    t = { s with store := memWrite s.store s.arg0.toNat 1 ((BitVec.ofBool v).setWidth 64) } := by
  unfold vsetRule at h
  split at h
  · cases h
  · next hn => injection h with h; exact ⟨indexFault_none hn, h.symm⟩

theorem vgetfRule_ok {s t : State} (h : vgetfRule s = .ok t) :
    1 ≤ fieldLength s ∧ s.arg0.toNat + fieldLength s ≤ s.capacity.toNat ∧
    t = { s with result := (memRead s.store s.arg0.toNat (fieldLength s)).setWidth 64 } := by
  unfold vgetfRule at h
  split at h
  · cases h
  · next hn => injection h with h; exact ⟨(fieldFault_none hn).1, (fieldFault_none hn).2, h.symm⟩

theorem vsetfRule_ok {s t : State} (h : vsetfRule s = .ok t) :
    1 ≤ fieldLength s ∧ s.arg0.toNat + fieldLength s ≤ s.capacity.toNat ∧
    t = { s with store := memWrite s.store s.arg0.toNat (fieldLength s) (fieldValue s) } := by
  unfold vsetfRule at h
  split at h
  · cases h
  · next hn => injection h with h; exact ⟨(fieldFault_none hn).1, (fieldFault_none hn).2, h.symm⟩

theorem vfillRule_ok {v : Bool} {s t : State} (h : vfillRule v s = .ok t) :
    t = { s with store := s.store.setAllBelow (bytesInUse s.params s.capacity.toNat) v } := by
  injection h with h
  exact h.symm

theorem binitRule_ok {s t : State} (h : binitRule s = .ok t) :
    1 ≤ s.arg0.toNat ∧ errorRateLegal s.arg1 = true ∧
    filterSize s ≤ s.params.maxCapacityBits.toNat ∧
    t = { s with
      store := s.store.zeroBelow (bytesInUse s.params (filterSize s))
      capacity := BitVec.ofNat 64 (filterSize s)
      hashCount := BitVec.ofNat 64 (filterHashCount s)
      mode := .bloom } := by
  unfold binitRule at h
  split at h
  · cases h
  · next hn =>
    split at h
    · cases h
    · injection h with h
      exact ⟨(sizingFault_none hn).1, (sizingFault_none hn).2, by omega, h.symm⟩

theorem binsRule_ok {s t : State} (h : binsRule s = .ok t) :
    t = { s with store := s.store.setPositions (hashPosition s) s.hashCount.toNat } := by
  injection h with h
  exact h.symm

theorem blookRule_ok {s t : State} (h : blookRule s = .ok t) :
    t = { s with
      result := (BitVec.ofBool (s.store.allSet (hashPosition s) s.hashCount.toNat)).setWidth 64 } := by
  injection h with h
  exact h.symm

theorem bsizeRule_ok {s t : State} (h : bsizeRule s = .ok t) :
    1 ≤ s.arg0.toNat ∧ errorRateLegal s.arg1 = true ∧ filterSize s < 2 ^ 64 ∧
    t = { s with
      result := BitVec.ofNat 64 (filterSize s)
      result1 := BitVec.ofNat 64 (filterHashCount s) } := by
  unfold bsizeRule at h
  split at h
  · cases h
  · next hn =>
    split at h
    · cases h
    · injection h with h
      exact ⟨(sizingFault_none hn).1, (sizingFault_none hn).2, by omega, h.symm⟩

/-- A position lies in the filter when the filter has a bit (R146). -/
theorem hashPosition_lt (s : State) (hf : Nat) (h : 1 ≤ s.capacity.toNat) :
    hashPosition s hf < s.capacity.toNat :=
  Nat.mod_lt _ h

/-- The blocks in use cover the addressable bits (R35). -/
theorem div_lt_bytesInUse (p : Params) {cap i : Nat} (h : i < cap) : i / 8 < bytesInUse p cap := by
  unfold bytesInUse blocksInUse
  cases p.blockWidth <;> simp only [blockBits] <;> omega

theorem bytesInUse_mono (p : Params) {a b : Nat} (h : a ≤ b) : bytesInUse p a ≤ bytesInUse p b := by
  unfold bytesInUse blocksInUse
  exact Nat.mul_le_mul_right _ (Nat.div_le_div_right (by omega))

end Sys2Proof.Machine
end

