-- ==== Sys2Proof/Laws/PerInstr.lean ====
section
/-! SUPPORT. The per-instruction family `LegalWord`: the encoder's word of each command is legal by R73's own
conditions, and carries the command's OP and V (30_encoding.md R70 to R72). -/

namespace Sys2Proof.Laws

/-- The word of `i` is legal, its OP field is the opcode of `i` and its V field the immediate of `i`. -/
def LegalWord.Statement (i : Instr) : Prop :=
  commandWordWf (encode i) = true ∧ opField (encode i) = i.opcode ∧ vField (encode i) = i.vBit

theorem LegalWord.vinit : LegalWord.Statement .vinit := by unfold LegalWord.Statement; decide
theorem LegalWord.vget : LegalWord.Statement .vget := by unfold LegalWord.Statement; decide
theorem LegalWord.vset (value : Bool) : LegalWord.Statement (.vset value) := by
  unfold LegalWord.Statement; revert value; decide
theorem LegalWord.vgetf : LegalWord.Statement .vgetf := by unfold LegalWord.Statement; decide
theorem LegalWord.vsetf : LegalWord.Statement .vsetf := by unfold LegalWord.Statement; decide
theorem LegalWord.vfill (value : Bool) : LegalWord.Statement (.vfill value) := by
  unfold LegalWord.Statement; revert value; decide
theorem LegalWord.binit : LegalWord.Statement .binit := by unfold LegalWord.Statement; decide
theorem LegalWord.bins : LegalWord.Statement .bins := by unfold LegalWord.Statement; decide
theorem LegalWord.blook : LegalWord.Statement .blook := by unfold LegalWord.Statement; decide
theorem LegalWord.bsize : LegalWord.Statement .bsize := by unfold LegalWord.Statement; decide

end Sys2Proof.Laws
end

