-- ==== Sys2Proof/Laws/Port.lean ====
section
/-! SUPPORT. What one access of the host can do (60_exceptions.md R195), said once, and what no command touches. -/

namespace Sys2Proof.Machine

theorem registerOf_number (r : Reg) : registerOf r.number = some r := by cases r <;> rfl

theorem number_of_registerOf {n : Nat} {r : Reg} (h : registerOf n = some r) : n = r.number := by
  unfold registerOf at h
  split at h <;> simp_all [Reg.number] <;> subst h <;> rfl

/-- The three things an access that is not refused does: it resets, it only reads, or it writes a register. -/
theorem perform_cases {a : HostAccess} {s t : State} (h : perform a s = .next t) :
    (a = .reset ∧ t = resetBlock s) ∨
    (a.isRead = true ∧ a.registerWrite s.params = none ∧ a ≠ .reset ∧
      ∃ x, t = { s with replies := s.replies ++ [x] }) ∨
    (∃ r v, a.registerWrite s.params = some (Reg.number r, v) ∧ a ≠ .reset ∧ writeReg r v s = .next t) := by
  cases a with
  | reset => exact .inl ⟨rfl, by simpa [perform, eq_comm] using h⟩
  | read n =>
    refine .inr (.inl ⟨rfl, rfl, by simp, ?_⟩)
    simp only [perform, hostRead] at h
    split at h
    · injection h with h
      exact ⟨_, h.symm⟩
    · cases h
  | busRead a n =>
    refine .inr (.inl ⟨rfl, rfl, by simp, ?_⟩)
    simp only [perform, busRead] at h
    split at h
    · cases h
    · split at h
      · injection h with h
        exact ⟨_, h.symm⟩
      · cases h
  | write n v =>
    simp only [perform, hostWrite] at h
    split at h
    · next r hr =>
      exact .inr (.inr ⟨r, v, by rw [number_of_registerOf hr]; rfl, by simp, h⟩)
    · cases h
  | busWrite a b =>
    simp only [perform, busWrite] at h
    split at h
    · cases h
    · next n hn =>
      simp only [hostWrite] at h
      split at h
      · next r hr =>
        refine .inr (.inr ⟨r, _, ?_, by simp, h⟩)
        simp only [HostAccess.registerWrite, hn]
        rw [number_of_registerOf hr]
      · cases h

/-- What a register write does, by register. -/
theorem writeReg_cases {r : Reg} {v : Word} {s t : State} (h : writeReg r v s = .next t) :
    (r = .cmd ∧ ∃ i, decode v = .ok i ∧ exec i s = .next t) ∨
    (r = .cmd ∧ (∃ e, decode v = .error e) ∧ t = illegalCommand v s) ∨
    (r = .status ∧ t = statusWrite v s) ∨
    (r = .arg0 ∧ t = { s with arg0 := v }) ∨
    (r = .arg1 ∧ t = { s with arg1 := v }) ∨
    (r = .arg2 ∧ t = { s with arg2 := v }) ∨
    (r ∈ [.cfg, .maxcap, .result, .result1, .capacity, .hashcount] ∧ t = s) := by
  cases r <;> simp only [writeReg] at h
  case cmd =>
    unfold commandWrite at h
    split at h
    · next i hi => exact .inl ⟨rfl, i, hi, h⟩
    · next e he =>
      injection h with h
      exact .inr (.inl ⟨rfl, ⟨e, he⟩, h.symm⟩)
  all_goals
    injection h with h
    simp [h]

/-- What no command touches: the parameters and the host's side of the port. -/
theorem exec_frame_port {i : Instr} {s t : State} (h : exec i s = .next t) :
    t.params = s.params ∧ t.pending = s.pending ∧ t.replies = s.replies := by
  rcases exec_cases h with ⟨_, rfl⟩ | ⟨_, _, rfl⟩ | ⟨_, _, f, _, rfl⟩ | ⟨_, _, hr⟩
  · simp
  · simp
  · simp
  · cases i <;> simp only [ruleOf] at hr
    · rw [(vinitRule_ok hr).2]; simp
    · rw [(vgetRule_ok hr).2]; simp
    · rw [(vsetRule_ok hr).2]; simp
    · rw [(vgetfRule_ok hr).2.2]; simp
    · rw [(vsetfRule_ok hr).2.2]; simp
    · rw [vfillRule_ok hr]; simp
    · rw [(binitRule_ok hr).2.2.2]; simp
    · rw [binsRule_ok hr]; simp
    · rw [blookRule_ok hr]; simp
    · rw [(bsizeRule_ok hr).2.2.2]; simp

end Sys2Proof.Machine
end

