-- ==== Sys2Proof/Laws/Sizing.lean ====
section
/-! SUPPORT. The rational enclosures of the sizing unit hold the real logarithms they stand for (41_bloom.md R140). -/

namespace Sys2Proof.Machine

theorem logSeries_power (u : Rat) (k : Nat) : (logSeries u k).2 = u ^ (k + 1) := by
  induction k with
  | zero => simp [logSeries]
  | succ k ih => rw [logSeries, ih, ← pow_succ]

theorem logSeries_sum (u : Rat) (k : Nat) :
    (logSeries u k).1 = ∑ i ∈ Finset.range k, u ^ (i + 1) / ((i : Rat) + 1) := by
  induction k with
  | zero => simp [logSeries]
  | succ k ih =>
    rw [Finset.sum_range_succ, ← ih, logSeries, logSeries_power]
    push_cast
    rfl

theorem logSeries_pos {u : Rat} (hu : 0 < u) (k : Nat) : 0 < (logSeries u (k + 1)).1 := by
  rw [logSeries_sum]
  exact Finset.sum_pos (fun i _ => by positivity) ⟨0, by simp⟩

theorem logLower_pos {k : Nat} (hk : 0 < k) {u : Rat} (hu : 0 < u) : 0 < logLower k u := by
  obtain ⟨j, rfl⟩ : ∃ j, k = j + 1 := ⟨k - 1, by omega⟩
  unfold logLower
  exact logSeries_pos hu j

/-- The partial sum lies below the logarithm: the terms left out are positive. -/
theorem logSeries_le {u : Rat} (h0 : 0 < u) (h1 : u ≤ 1 / 2) (k : Nat) :
    ((logSeries u k).1 : ℝ) ≤ -Real.log (1 - (u : ℝ)) := by
  have hu0 : (0 : ℝ) < u := by exact_mod_cast h0
  have hu1 : (u : ℝ) < 1 := by exact_mod_cast lt_of_le_of_lt h1 (by norm_num)
  have hs := Real.hasSum_pow_div_log_of_abs_lt_one (x := (u : ℝ)) (by rw [abs_of_pos hu0]; exact hu1)
  rw [logSeries_sum]
  push_cast
  exact sum_le_hasSum _ (fun i _ => by positivity) hs

theorem cast_le_half {u : Rat} (h : u ≤ 1 / 2) : (u : ℝ) ≤ 1 / 2 := by
  have := (Rat.cast_le (K := ℝ)).mpr h
  push_cast at this
  exact this

/-- The partial sum of `k` terms is within `1 / 2^k` of the logarithm. -/
theorem le_logSeries {u : Rat} (h0 : 0 < u) (h1 : u ≤ 1 / 2) (k : Nat) :
    -Real.log (1 - (u : ℝ)) ≤ ((logSeries u k).1 : ℝ) + 1 / 2 ^ k := by
  have hu0 : (0 : ℝ) < u := by exact_mod_cast h0
  have hu2 : (u : ℝ) ≤ 1 / 2 := cast_le_half h1
  have hb := Real.abs_log_sub_add_sum_range_le (x := (u : ℝ)) (by rw [abs_of_pos hu0]; linarith) k
  rw [abs_of_pos hu0] at hb
  have hl := (abs_le.mp hb).1
  have ht : (u : ℝ) ^ (k + 1) / (1 - u) ≤ 1 / 2 ^ k := by
    have hp : (u : ℝ) ^ (k + 1) ≤ (1 / 2) ^ (k + 1) := pow_le_pow_left₀ hu0.le hu2 _
    rw [div_le_iff₀ (by linarith)]
    calc (u : ℝ) ^ (k + 1) ≤ (1 / 2) ^ (k + 1) := hp
      _ = 1 / 2 ^ k * (1 / 2) := by rw [pow_succ, one_div_pow]
      _ ≤ 1 / 2 ^ k * (1 - u) := by gcongr; linarith
  rw [logSeries_sum]
  push_cast
  linarith

theorem logLower_le (k : Nat) {u : Rat} (h0 : 0 < u) (h1 : u ≤ 1 / 2) :
    (logLower k u : ℝ) ≤ -Real.log (1 - (u : ℝ)) := by
  unfold logLower
  exact logSeries_le h0 h1 _

theorem le_logUpper (k : Nat) {u : Rat} (h0 : 0 < u) (h1 : u ≤ 1 / 2) :
    -Real.log (1 - (u : ℝ)) ≤ (logUpper k u : ℝ) := by
  have h := le_logSeries h0 h1 k
  unfold logUpper logLower
  push_cast
  exact h

theorem logUpper_eq (k : Nat) (u : Rat) : logUpper k u = logLower k u + 1 / 2 ^ k := by
  unfold logUpper
  push_cast
  rfl

theorem neg_log_half : -Real.log (1 - ((1 / 2 : Rat) : ℝ)) = Real.log 2 := by
  rw [← Real.log_inv]
  congr 1
  norm_num

theorem ln2Lower_le (k : Nat) : (ln2Lower k : ℝ) ≤ Real.log 2 :=
  neg_log_half ▸ logLower_le k (by norm_num) le_rfl

theorem le_ln2Upper (k : Nat) : Real.log 2 ≤ (ln2Upper k : ℝ) :=
  neg_log_half ▸ le_logUpper k (by norm_num) le_rfl

theorem ln2Lower_pos {k : Nat} (hk : 0 < k) : 0 < ln2Lower k := logLower_pos hk (by norm_num)

theorem ln2Upper_eq (k : Nat) : ln2Upper k = ln2Lower k + 1 / 2 ^ k := logUpper_eq k _

theorem ln2Upper_pos (k : Nat) : 0 < ln2Upper k := by
  have : (0 : ℝ) < ln2Upper k := lt_of_lt_of_le (Real.log_pos (by norm_num)) (le_ln2Upper k)
  exact_mod_cast this

theorem ln2Lower_gt : 693147 / 1000000 < ln2Lower logTerms := by decide +kernel

theorem ln2Upper_lt : ln2Upper logTerms < 693148 / 1000000 := by decide +kernel

/-! ### The error rate as `(1 - u) / 2^shift` -/

theorem significand_pos {pb : Word} (h : errorRateLegal pb = true) : 0 < significand pb := by
  simp only [errorRateLegal, Bool.and_eq_true, decide_eq_true_eq] at h
  unfold significand exponentField fractionField
  simp only [BitVec.extractLsb'_toNat, Nat.shiftRight_eq_div_pow, Nat.pow_zero, Nat.div_one]
  split
  · next he => omega
  · omega

theorem exponentField_le {pb : Word} (h : errorRateLegal pb = true) : exponentField pb ≤ 1022 := by
  simp only [errorRateLegal, Bool.and_eq_true, decide_eq_true_eq] at h
  unfold exponentField
  simp only [BitVec.extractLsb'_toNat, Nat.shiftRight_eq_div_pow]
  omega

theorem significand_lt (pb : Word) : significand pb < 2 ^ 53 := by
  unfold significand fractionField
  have := (pb.extractLsb' 0 52).isLt
  split <;> omega

theorem significandLength_le (pb : Word) : significandLength pb ≤ 53 := by
  unfold significandLength
  by_cases h : significand pb = 0
  · rw [h]; decide
  · have := (Nat.log2_lt h).mpr (significand_lt pb)
    omega

theorem significand_lt_pow (pb : Word) : significand pb < 2 ^ significandLength pb :=
  Nat.lt_log2_self

theorem pow_le_two_mul_significand {pb : Word} (h : 0 < significand pb) :
    2 ^ significandLength pb ≤ 2 * significand pb := by
  have := Nat.log2_self_le (n := significand pb) (by omega)
  unfold significandLength
  rw [pow_succ]
  omega

theorem errorRateU_pos (pb : Word) : 0 < errorRateU pb := by
  have := significand_lt_pow pb
  unfold errorRateU
  exact div_pos (by exact_mod_cast Nat.sub_pos_of_lt this) (by exact_mod_cast Nat.two_pow_pos _)

theorem errorRateU_le {pb : Word} (h : errorRateLegal pb = true) : errorRateU pb ≤ 1 / 2 := by
  have h1 := pow_le_two_mul_significand (significand_pos h)
  have h2 := (significand_lt_pow pb).le
  unfold errorRateU
  rw [div_le_iff₀ (by exact_mod_cast Nat.two_pow_pos _), Nat.cast_sub h2]
  have : ((2 ^ significandLength pb : Nat) : Rat) ≤ 2 * (significand pb : Rat) := by exact_mod_cast h1
  linarith

/-- A legal error rate is `(1 - u) / 2^shift`. -/
theorem binary64Magnitude_eq {pb : Word} (h : errorRateLegal pb = true) :
    binary64Magnitude pb = (1 - errorRateU pb) / 2 ^ errorRateShift pb := by
  have hle := (significand_lt_pow pb).le
  have hlen := significandLength_le pb
  have hexp := exponentField_le h
  have hpow : (0 : Rat) < ((2 ^ significandLength pb : Nat) : Rat) := by exact_mod_cast Nat.two_pow_pos _
  unfold binary64Magnitude errorRateU errorRateShift
  rw [Nat.cast_sub hle, one_sub_div hpow.ne', sub_sub_cancel, div_div]
  rw [div_eq_div_iff (by positivity) (by positivity)]
  simp only [Nat.cast_mul, Nat.cast_pow, Nat.cast_ofNat]
  rw [mul_assoc, ← pow_add, ← pow_add]
  congr 2
  omega

/-- `-ln(p)` in the parts the sizing unit encloses. -/
theorem neg_log_errorRate {pb : Word} (h : errorRateLegal pb = true) :
    -Real.log (binary64Magnitude pb : ℝ) =
      (errorRateShift pb : ℝ) * Real.log 2 + -Real.log (1 - (errorRateU pb : ℝ)) := by
  have hu : (errorRateU pb : ℝ) ≤ 1 / 2 := cast_le_half (errorRateU_le h)
  rw [binary64Magnitude_eq h]
  push_cast
  rw [Real.log_div (by linarith) (by positivity), Real.log_pow]
  ring

theorem negLnLower_le (k : Nat) {pb : Word} (h : errorRateLegal pb = true) :
    (negLnLower k pb : ℝ) ≤ -Real.log (binary64Magnitude pb : ℝ) := by
  rw [neg_log_errorRate h]
  unfold negLnLower
  push_cast
  exact add_le_add (mul_le_mul_of_nonneg_left (ln2Lower_le k) (Nat.cast_nonneg _))
    (logLower_le k (errorRateU_pos pb) (errorRateU_le h))

theorem le_negLnUpper (k : Nat) {pb : Word} (h : errorRateLegal pb = true) :
    -Real.log (binary64Magnitude pb : ℝ) ≤ (negLnUpper k pb : ℝ) := by
  rw [neg_log_errorRate h]
  unfold negLnUpper
  push_cast
  exact add_le_add (mul_le_mul_of_nonneg_left (le_ln2Upper k) (Nat.cast_nonneg _))
    (le_logUpper k (errorRateU_pos pb) (errorRateU_le h))

theorem negLnLower_pos {k : Nat} (hk : 0 < k) (pb : Word) : 0 < negLnLower k pb :=
  add_pos_of_nonneg_of_pos (mul_nonneg (Nat.cast_nonneg _) (ln2Lower_pos hk).le)
    (logLower_pos hk (errorRateU_pos pb))

theorem negLnUpper_eq (k : Nat) (pb : Word) :
    negLnUpper k pb = negLnLower k pb + ((errorRateShift pb : Rat) + 1) * (1 / 2 ^ k) := by
  unfold negLnUpper negLnLower
  rw [ln2Upper_eq, logUpper_eq]
  ring

/-! ### The enclosure of the size -/

/-- The real number whose ceiling R140 makes `sizeBits`. -/
noncomputable def realSize (n : Nat) (pb : Word) : ℝ :=
  -Real.log (binary64Magnitude pb : ℝ) * n / Real.log 2 ^ 2

theorem sizeLower_le (k : Nat) {n : Nat} {pb : Word} (hk : 0 < k) (h : errorRateLegal pb = true) :
    (sizeLower k n pb : ℝ) ≤ realSize n pb := by
  have hp : (0 : ℝ) ≤ negLnLower k pb := by exact_mod_cast (negLnLower_pos hk pb).le
  have h2 : (0 : ℝ) < Real.log 2 := Real.log_pos (by norm_num)
  have hL := negLnLower_le k h
  have hU := le_ln2Upper k
  unfold sizeLower realSize
  push_cast
  rw [← sq]
  have hp' : 0 ≤ -Real.log (binary64Magnitude pb : ℝ) := hp.trans hL
  gcongr

theorem le_sizeUpper (k : Nat) {n : Nat} {pb : Word} (hk : 0 < k) (h : errorRateLegal pb = true) :
    realSize n pb ≤ (sizeUpper k n pb : ℝ) := by
  have hp : (0 : ℝ) < ln2Lower k := by exact_mod_cast ln2Lower_pos hk
  have hq : (0 : ℝ) ≤ negLnLower k pb := by exact_mod_cast (negLnLower_pos hk pb).le
  have hL := le_negLnUpper k h
  have h0 := hq.trans (negLnLower_le k h)
  have hU := ln2Lower_le k
  unfold sizeUpper realSize
  push_cast
  rw [← sq]
  have hL0 := h0.trans hL
  gcongr

theorem sizeLower_pos {k n : Nat} (hk : 0 < k) (hn : 1 ≤ n) (pb : Word) : 0 < sizeLower k n pb := by
  have h1 := negLnLower_pos hk pb
  have h2 := ln2Upper_pos k
  have h3 : (0 : Rat) < n := by exact_mod_cast hn
  unfold sizeLower
  positivity

theorem tendsto_half_pow : Filter.Tendsto (fun k : Nat => (1 : ℝ) / 2 ^ k) Filter.atTop (nhds 0) := by
  have h := tendsto_pow_atTop_nhds_zero_of_lt_one (r := (1 / 2 : ℝ)) (by norm_num) (by norm_num)
  exact h.congr fun k => by rw [one_div_pow]

/-- A sequence within `1 / 2^k` below a real number tends to it. -/
theorem tendsto_of_half_pow {f : Nat → ℝ} {x c : ℝ} (hle : ∀ k, f k ≤ x) (hge : ∀ k, x ≤ f k + c * (1 / 2 ^ k)) :
    Filter.Tendsto f Filter.atTop (nhds x) := by
  have h : Filter.Tendsto (fun k : Nat => x - c * (1 / 2 ^ k)) Filter.atTop (nhds x) := by
    simpa using (tendsto_half_pow.const_mul c).const_sub x
  exact tendsto_of_tendsto_of_tendsto_of_le_of_le h tendsto_const_nhds
    (fun k => by have := hge k; simp only; linarith) hle

theorem ln2Lower_tendsto : Filter.Tendsto (fun k => (ln2Lower k : ℝ)) Filter.atTop (nhds (Real.log 2)) :=
  tendsto_of_half_pow ln2Lower_le (c := 1) fun k => by
    have h := le_ln2Upper k
    rw [ln2Upper_eq] at h
    push_cast at h
    linarith

theorem ln2Upper_tendsto : Filter.Tendsto (fun k => (ln2Upper k : ℝ)) Filter.atTop (nhds (Real.log 2)) := by
  have h := ln2Lower_tendsto.add tendsto_half_pow
  rw [add_zero] at h
  exact h.congr fun k => by rw [ln2Upper_eq]; push_cast; rfl

theorem negLnLower_tendsto {pb : Word} (h : errorRateLegal pb = true) :
    Filter.Tendsto (fun k => (negLnLower k pb : ℝ)) Filter.atTop
      (nhds (-Real.log (binary64Magnitude pb : ℝ))) :=
  tendsto_of_half_pow (fun k => negLnLower_le k h) (c := (errorRateShift pb : ℝ) + 1) fun k => by
    have hu := le_negLnUpper k h
    rw [negLnUpper_eq] at hu
    push_cast at hu
    linarith

theorem negLnUpper_tendsto {pb : Word} (h : errorRateLegal pb = true) :
    Filter.Tendsto (fun k => (negLnUpper k pb : ℝ)) Filter.atTop
      (nhds (-Real.log (binary64Magnitude pb : ℝ))) := by
  have ht := (negLnLower_tendsto h).add (tendsto_half_pow.const_mul ((errorRateShift pb : ℝ) + 1))
  rw [mul_zero, add_zero] at ht
  exact ht.congr fun k => by rw [negLnUpper_eq]; push_cast; rfl

theorem log_two_sq_ne_zero : Real.log 2 * Real.log 2 ≠ 0 :=
  mul_self_ne_zero.mpr (Real.log_pos (by norm_num)).ne'

theorem sizeLower_tendsto (n : Nat) {pb : Word} (h : errorRateLegal pb = true) :
    Filter.Tendsto (fun k => (sizeLower k n pb : ℝ)) Filter.atTop (nhds (realSize n pb)) := by
  have ht := ((negLnLower_tendsto h).mul_const (n : ℝ)).div (ln2Upper_tendsto.mul ln2Upper_tendsto)
    log_two_sq_ne_zero
  rw [← sq] at ht
  exact ht.congr fun k => by unfold sizeLower; push_cast; rfl

theorem sizeUpper_tendsto (n : Nat) {pb : Word} (h : errorRateLegal pb = true) :
    Filter.Tendsto (fun k => (sizeUpper k n pb : ℝ)) Filter.atTop (nhds (realSize n pb)) := by
  have ht := ((negLnUpper_tendsto h).mul_const (n : ℝ)).div (ln2Lower_tendsto.mul ln2Lower_tendsto)
    log_two_sq_ne_zero
  rw [← sq] at ht
  exact ht.congr fun k => by unfold sizeUpper; push_cast; rfl

/-! ### The search for an enclosure that settles the ceiling -/

theorem rat_ceil_eq (q : Rat) : q.ceil = ⌈q⌉ := by
  rw [Rat.ceil_eq_neg_floor_neg]
  rfl

/-- An enclosure that settles the ceiling settles it right. -/
theorem ceil_of_sizeDecided {k n : Nat} {pb : Word} (hk : 0 < k) (h : errorRateLegal pb = true)
    (hd : sizeDecided k n pb = true) : (sizeLower k n pb).ceil = ⌈realSize n pb⌉ := by
  simp only [sizeDecided, beq_iff_eq, rat_ceil_eq] at hd
  rw [rat_ceil_eq]
  refine le_antisymm ?_ ?_
  · rw [← Rat.ceil_cast (α := ℝ)]
    exact Int.ceil_mono (sizeLower_le k hk h)
  · rw [hd, ← Rat.ceil_cast (α := ℝ)]
    exact Int.ceil_mono (le_sizeUpper k hk h)

/-- Unless the real value is an integer, every enclosure fine enough settles its ceiling. -/
theorem exists_sizeDecided {n : Nat} {pb : Word} (h : errorRateLegal pb = true)
    (hx : realSize n pb < ⌈realSize n pb⌉) (j : Nat) : ∃ k, j ≤ k ∧ sizeDecided k n pb = true := by
  have hl := (sizeLower_tendsto n h).eventually (lt_mem_nhds (show (⌈realSize n pb⌉ : ℝ) - 1 < realSize n pb by
    linarith [Int.ceil_lt_add_one (realSize n pb)]))
  have hu := (sizeUpper_tendsto n h).eventually (gt_mem_nhds hx)
  obtain ⟨k, ⟨h1, h2⟩, hj⟩ := ((hl.and hu).and (Filter.eventually_ge_atTop (max j 1))).exists
  have hk : 0 < k := by omega
  have low : ⌈sizeLower k n pb⌉ = ⌈realSize n pb⌉ := by
    rw [← Rat.ceil_cast (α := ℝ)]
    exact Int.ceil_eq_iff.mpr ⟨h1, (sizeLower_le k hk h).trans (Int.le_ceil _)⟩
  have upp : ⌈sizeUpper k n pb⌉ = ⌈realSize n pb⌉ := by
    rw [← Rat.ceil_cast (α := ℝ)]
    exact Int.ceil_eq_iff.mpr ⟨by
      linarith [le_sizeUpper k (n := n) hk h, Int.ceil_lt_add_one (realSize n pb)], h2.le⟩
  exact ⟨k, by omega, by simp only [sizeDecided, beq_iff_eq, rat_ceil_eq, low, upp]⟩

/-- What the search answers is the ceiling of the real value. -/
theorem sizeSearch_some {n : Nat} {pb : Word} (h : errorRateLegal pb = true) {k : Nat} (hk : 0 < k) {c : Int}
    (hc : sizeSearch n pb k = some c) : c = ⌈realSize n pb⌉ := by
  refine sizeSearch.partial_correctness n pb (fun k c => 0 < k → c = ⌈realSize n pb⌉) ?_ k c hc hk
  intro search ih j r hr hj
  by_cases hd : sizeDecided j n pb = true
  · rw [if_pos hd] at hr
    injection hr with hr
    exact hr ▸ ceil_of_sizeDecided hj h hd
  · rw [if_neg hd] at hr
    exact ih _ _ hr (Nat.succ_pos j)

/-- The search answers wherever an enclosure it reaches settles the ceiling. -/
theorem sizeSearch_ne_none {n : Nat} {pb : Word} {k : Nat} (d : Nat) (hd : sizeDecided (k + d) n pb = true) :
    sizeSearch n pb k ≠ none := by
  induction d generalizing k with
  | zero =>
    rw [sizeSearch, if_pos (by simpa using hd)]
    exact Option.some_ne_none _
  | succ d ih =>
    rw [sizeSearch]
    split
    · exact Option.some_ne_none _
    · exact ih (by rwa [Nat.add_assoc, Nat.add_comm 1])

end Sys2Proof.Machine
end

