-- ==== Sys2Proof/Tests/Slice0.lean ====
section
/-! SUPPORT. The model's own tests.  Expected values are those of spec/95_test_vectors.md (the section is named at each
test) or of the encoding tables of spec/30_encoding.md; the second half gives, for every statement with hypotheses,
concrete data that meet them, at the ends of the ranges. -/

namespace Sys2Proof.Machine.Test

open Sys2Proof Sys2Proof.Machine

/-! ### Small states -/

/-- The next state of an outcome. -/
def after (o : Host.Outcome State Fault Refusal) : Option State :=
  match o with
  | .next t => some t
  | .fault _ | .refused _ => none

/-- `B = 8`, `MAX_CAPACITY_BITS = 1024`, and the constants of configuration T1 (95_test_vectors.md). -/
def params8 : Params where
  blockWidth := .w8
  maxCapacityBits := 1024
  hfSeedBase := 0
  golden := 0x9E3779B97F4A7C15
  sizingMode := .exact
  regBase := 0x1000
  hostByteOrder := .big

/-- After reset, with operands. -/
def fresh (a0 a1 a2 : Word) : State := { State.resetWith params8 with arg0 := a0, arg1 := a1, arg2 := a2 }

/-- A vector of `cap` bits with the given bytes listed, and operands. -/
def vec (cap : Word) (cells : List Host.Cell) (a0 a1 a2 : Word) : State :=
  { fresh a0 a1 a2 with
    mode := .vector
    capacity := cap
    store := { cells := cells, zeroed := 128, epoch := 0 } }

/-- A filter of 96 bits and 6 positions (section 2.9), with the hash `h` in ARG0. -/
def filter96 (cells : List Host.Cell) (h : Word) : State :=
  { fresh h 0 0 with
    mode := .bloom
    capacity := 96
    hashCount := 6
    store := { cells := cells, zeroed := 12, epoch := 0 } }

/-- Bits 5, 9 and 19 set (section 2.5). -/
def bits5and9and19 : List Host.Cell := [(0, 0x20), (1, 0x02), (2, 0x08)]

/-- A recorded INDEX fault of VGET. -/
def faulted : State := { vec 16 [] 16 0 0 with err := true, errCode := 3, errOp := 2 }

/-- 0.01 as a binary64 pattern. -/
def p01 : Word := 0x3F847AE147AE147B

/-! ### Decoding: words written out from R70 to R74, RSV (55 bits), V (1 bit), OP (8 bits) -/

theorem test_decode_vinit : decode (0#55 ++ 0#1 ++ 0b00000001#8) = .ok .vinit := by decide
theorem test_decode_vget : decode (0#55 ++ 0#1 ++ 0b00000010#8) = .ok .vget := by decide
theorem test_decode_vset : decode (0#55 ++ 1#1 ++ 0b00000011#8) = .ok (.vset true) := by decide
theorem test_decode_vset0 : decode (0#55 ++ 0#1 ++ 0b00000011#8) = .ok (.vset false) := by decide
theorem test_decode_vgetf : decode (0#55 ++ 0#1 ++ 0b00000100#8) = .ok .vgetf := by decide
theorem test_decode_vsetf : decode (0#55 ++ 0#1 ++ 0b00000101#8) = .ok .vsetf := by decide
theorem test_decode_vfill : decode (0#55 ++ 1#1 ++ 0b00000110#8) = .ok (.vfill true) := by decide
theorem test_decode_vfill0 : decode (0#55 ++ 0#1 ++ 0b00000110#8) = .ok (.vfill false) := by decide
theorem test_decode_binit : decode (0#55 ++ 0#1 ++ 0b00010001#8) = .ok .binit := by decide
theorem test_decode_bins : decode (0#55 ++ 0#1 ++ 0b00010010#8) = .ok .bins := by decide
theorem test_decode_blook : decode (0#55 ++ 0#1 ++ 0b00010011#8) = .ok .blook := by decide
theorem test_decode_bsize : decode (0#55 ++ 0#1 ++ 0b00010100#8) = .ok .bsize := by decide

/-- The illegal words of section 2.1. -/
theorem test_decode_illegal :
    [0x0, 0x7, 0x10, 0x15, 0xFF].all (fun c : Word => decide (decode c = .error .unknownOpcode)) = true ∧
    [0x101, 0x114].all (fun c : Word => decide (decode c = .error .immediateOnFormatN)) = true ∧
    [0x200, 0x8000000000000000, 0x204, 0x100000002].all
      (fun c : Word => decide (decode c = .error .reservedBits)) = true := by decide

/-- The table numbering of one command word is the word's own (R74, R79). -/
theorem test_decodeTableWord :
    decodeTableWord 16 0x103 = some (.vset true) ∧ decodeTableWord 64 0x14 = some .bsize ∧
    decodeTableWord 8 0x103 = some (.vset false) ∧ decodeTableWord 64 0x15 = none ∧
    decodeTableWord 72 0x10000000000000001 = none := by decide

/-! ### Well-formedness: one ill-formed term for each check -/

theorem test_wf_reservedBits : reservedBitsZero 0x204 = false ∧ commandWordWf 0x204 = false := by decide
theorem test_wf_unknownOpcode : opcodeKnown 0x07 = false ∧ commandWordWf 0x07 = false := by decide
theorem test_wf_immediateOnFormatN : immediateAllowed 0x114 = false ∧ commandWordWf 0x114 = false := by decide
theorem test_wf_legal : commandWordWf 0x103 = true ∧ commandWordWf 0x14 = true := by decide
theorem test_wf_maxCapacity : ({ params8 with maxCapacityBits := 0 } : Params).wf = false := by decide
theorem test_wf_golden : ({ params8 with golden := 2 } : Params).wf = false := by decide
theorem test_wf_regBase : ({ params8 with regBase := 0x1004 } : Params).wf = false := by decide
theorem test_wf_params : params8.wf = true := by decide

/-! ### One step per command -/

/-- Section 2.3: VINIT 32 from reset. -/
theorem test_vinit :
    (after (exec .vinit (fresh 32 0 0))).map
        (fun t => (t.capacity, t.hashCount, statusWord t, t.store.readByte 3)) =
      some (32, 0, 0x01000000, 0) := by decide

/-- Section 2.3: VINIT 1025 is one bit above the limit. -/
theorem test_vinit_size :
    (after (exec .vinit (fresh 1025 0 0))).map (fun t => (t.capacity, statusWord t)) =
      some (0, 0x00010701) := by decide

/-- Section 2.4: VGET 9 of a vector with bits 5 and 9 set. -/
theorem test_vget :
    (after (exec .vget (vec 32 bits5and9and19 9 0 0))).map (·.result) = some 1 := by decide

/-- Section 2.4: VGET 32 of a 32-bit vector. -/
theorem test_vget_index :
    (after (exec .vget (vec 32 bits5and9and19 32 0 0))).map (fun t => (t.result, statusWord t)) =
      some (0, 0x01020301) := by decide

/-- Section 2.4: VSET 1 at 9 after VSET 1 at 5. -/
theorem test_vset :
    (after (exec (.vset true) (vec 32 [(0, 0x20)] 9 0 0))).map (·.store.cells) =
      some [(0, 0x20), (1, 0x02)] := by decide

/-- Section 2.4: VSET 0 at 5 leaves `blk = [0x00, 0x02, 0x00, 0x00]`. -/
theorem test_vset_clear :
    (after (exec (.vset false) (vec 32 [(0, 0x20), (1, 0x02)] 5 0 0))).map (·.store.cells) =
      some [(1, 0x02)] := by decide

/-- Section 2.5: a full word crossing nine 8-bit blocks. -/
theorem test_vgetf :
    (after (exec .vgetf (vec 128 bits5and9and19 3 64 0))).map (·.result) = some 65604 := by decide +kernel

/-- Section 2.5: the sum of index and length does not wrap. -/
theorem test_vgetf_index :
    (after (exec .vgetf (vec 128 bits5and9and19 0xFFFFFFFFFFFFFFFF 64 0))).map statusWord =
      some 0x01040301 := by decide

/-- Section 2.6: 20 bits at 5. -/
theorem test_vsetf :
    (after (exec .vsetf (vec 128 [] 5 20 0xABCDE))).map (·.store.cells) =
      some [(0, 0xC0), (1, 0x9B), (2, 0x57), (3, 0x01)] := by decide +kernel

/-- Section 2.6, preservation: seven zeros at 5 into ones. -/
theorem test_vsetf_keeps :
    (after (exec .vsetf (vec 32 [(0, 0xFF), (1, 0xFF), (2, 0xFF), (3, 0xFF)] 5 7 0))).map (·.store.cells) =
      some [(0, 0x1F), (1, 0xF0), (2, 0xFF), (3, 0xFF)] := by decide

/-- Section 2.7: VFILL 1 of 100 bits writes 13 blocks of 8 bits. -/
theorem test_vfill :
    (after (exec (.vfill true) (vec 100 [] 0 0 0))).map (·.store.cells) =
      some ((List.range 13).map fun a => (a, 0xFF)) := by decide +kernel

/-- Section 2.7, `B = 64`: VFILL 0 clears 16 bytes, and a byte of the next block stays. -/
theorem test_vfill_zero :
    (after (exec (.vfill false)
        { vec 100 [(15, 0xFF), (16, 0xFF)] 0 0 0 with params := { params8 with blockWidth := .w64 } })).map
        (·.store.cells) = some [(16, 0xFF)] := by decide +kernel

/-- Section 2.2: BINIT 10, 0.01 from reset. -/
theorem test_binit :
    (after (exec .binit (fresh 10 p01 0))).map (fun t => (t.capacity, t.hashCount, statusWord t)) =
      some (96, 6, 0x02000000) := by decide +kernel

/-- Section 2.8: BINIT 200, 0.01 needs 1918 bits, above `MAX_CAPACITY_BITS = 1024`. -/
theorem test_binit_size :
    (after (exec .binit (fresh 200 p01 0))).map (fun t => (t.capacity, statusWord t)) =
      some (0, 0x00110701) := by decide +kernel

/-- Section 2.9: the store loop of BINS 42 on the positions of configuration T1. -/
theorem test_bins :
    (({ cells := [], zeroed := 12, epoch := 0 } : Memory).setPositions
        (bloomPosition id 0 0x9E3779B97F4A7C15 42 96) 6).cells = [(3, 0x80), (4, 0x1F)] := by decide +kernel

/-- Section 2.9: BLOOK 42 is 1 and BLOOK 0 is 0 in that filter. -/
theorem test_blook :
    ({ cells := [(3, 0x80), (4, 0x1F)], zeroed := 12, epoch := 0 } : Memory).allSet
        (bloomPosition id 0 0x9E3779B97F4A7C15 42 96) 6 = true ∧
    ({ cells := [(3, 0x80), (4, 0x1F)], zeroed := 12, epoch := 0 } : Memory).allSet
        (bloomPosition id 0 0x9E3779B97F4A7C15 0 96) 6 = false := by decide

/-- Section 2.9, configuration T2, which tells the two applications of MIX apart. -/
theorem test_positions :
    (List.range 6).map (bloomPosition (· * 0xFF51AFD7ED558CCD) 0 0x9E3779B97F4A7C15 7 96) =
      [12, 85, 62, 39, 16, 89] ∧
    (List.range 6).map (bloomPosition id 0 0x9E3779B97F4A7C15 0xFFFFFFFFFFFFFFFF 96) =
      [84, 85, 86, 87, 88, 89] := by decide

/-- Section 2.2: BSIZE 10, 0.01 from reset. -/
theorem test_bsize :
    (after (exec .bsize (fresh 10 p01 0))).map (fun t => (t.result, t.result1, statusWord t)) =
      some (96, 6, 0) := by decide +kernel

/-- Section 2.8: POPULATION comes before ERRORRATE; +0, -0, 1.0, -0.5, infinity and a NaN are no error rates. -/
theorem test_bsize_faults :
    (after (exec .bsize (fresh 0 0 0))).map statusWord = some 0x00140501 ∧
    [0, 0x8000000000000000, 0x3FF0000000000000, 0xBFE0000000000000, 0x7FF0000000000000, 0x7FF8000000000000].map
        (fun pb => (after (exec .bsize (fresh 10 pb 0))).map statusWord) =
      List.replicate 6 (some 0x00140601) := by decide +kernel

/-! ### Sizing (section 2.8) -/

theorem test_sizing_exact :
    [(1, 0x3FE0000000000000), (100, 0x3FA999999999999A), (1000000, 0x3EB0C6F7A0B5ED8D), (10, 0x3FECCCCCCCCCCCCD),
      (10, 0x3FEFFFFFFFFFFFFF), (1, 1), (892, 0x3FE3B4FDF09FF139), (182, 0x3E171997E5879559)].map
        (fun x : Nat × Word => (sizeDecided logTerms x.1 x.2, exactSizeBits x.1 x.2, exactHashCount (exactSizeBits x.1 x.2) x.1)) =
      [(true, 2, 1), (true, 624, 4), (true, 28755176, 19), (true, 3, 0), (true, 1, 0), (true, 1550, 1074),
        (true, 901, 0), (true, 7738, 29)] := by decide +kernel

/-- The divergence table, with the magnitudes of `math.log` at the three error rates and at 2. -/
theorem test_sizing_binary64 :
    let ln2 := binary64Magnitude 0x3FE62E42FEFA39EF
    [(0x40126BB1BBB55515, 10), (0x3FDF06573C59781F, 892), (0x40346D5B2FC35057, 182)].map
        (fun x : Word × Nat =>
          (recipSizeBits (binary64Magnitude x.1) ln2 x.2, divSizeBits (binary64Magnitude x.1) ln2 x.2)) =
      [(96, 96), (900, 901), (7738, 7739)] ∧
    [(96, 10), (900, 892), (7739, 182)].map (fun x : Nat × Nat => binary64HashCount ln2 x.1 x.2) =
      [6, 0, 29] := by decide +kernel

/-! ### The port and the step -/

/-- Section 2.10: the accesses beside the commands. -/
theorem test_port :
    after (hostWrite 3 0xFFFFFFFFFFFFFFFE faulted) = some faulted ∧
    (after (hostWrite 3 1 faulted)).map statusWord = some 0x01000000 ∧
    (after (hostWrite 2 0x01 faulted)) = some faulted ∧
    (after (hostRead 2 faulted)).map (·.replies) = some [.word 0] ∧
    after (hostWrite 7 7 faulted) = some faulted ∧ after (hostRead 11 faulted) = none := by decide

/-- R52: STATUS of `faulted` on a big-endian bus at `REG_BASE + 24`. -/
theorem test_busRead :
    (after (busRead 0x1018 8 faulted)).map (·.replies) = some [.bytes [0, 0, 0, 0, 1, 2, 3, 1]] ∧
    after (busRead 0x1018 4 faulted) = none ∧ after (busRead 0x101C 8 faulted) = none := by decide

/-- Every command word placed as the next access after reset is performed (section 2.2 with ARG0 = ARG1 = 0). -/
theorem test_fetch :
    [0x01, 0x02, 0x03, 0x103, 0x04, 0x05, 0x06, 0x106, 0x11, 0x12, 0x13, 0x14].all
      (fun w => (after (step (State.reset.withFetchWord 64 w))).isSome) = true := by decide

/-- Section 2.2: VGET after reset is a MODE fault. -/
theorem test_fetch_vget :
    (after (step ((fresh 10 0 0).withFetchWord 64 0x02))).map statusWord = some 0x00020201 := by decide

/-! ### Witnesses: data that meet the hypotheses of the statements

One theorem per statement with hypotheses, one conjunct per clause, in the statement's order; where the clause has a
range, the values at its end. -/

/-- A host write to MAXCAP is the step. -/
theorem witness_ConfigurationRegistersConstant :
    ∃ t, step { fresh 0 0 0 with pending := [.write 1 5] } = .next t := ⟨_, rfl⟩

/-- A fault entered, a fault cleared by STATUS and by reset, a mode changed by VINIT. -/
theorem witness_StatusFieldsAndWriters :
    (∃ t, perform (.write 2 0x07) (fresh 0 0 0) = .next t ∧ t.errCode ≠ 0) ∧
    (∃ t, perform (.write 3 1) faulted = .next t ∧ t.errCode ≠ faulted.errCode) ∧
    (∃ t, perform .reset faulted = .next t ∧ t.errOp ≠ faulted.errOp) ∧
    (∃ t, perform (.write 2 0x01) (fresh 8 0 0) = .next t ∧ t.mode ≠ .none) :=
  ⟨⟨_, rfl, by decide⟩, ⟨_, rfl, by decide⟩, ⟨_, rfl, by decide⟩, ⟨_, rfl, by decide⟩⟩

theorem witness_StatusWriteClears :
    (0x0000000000000001#64).getLsbD 0 = true ∧ (0xFFFFFFFFFFFFFFFE#64).getLsbD 0 = false := by decide

/-- A command, and a host write that changes ARG2. -/
theorem witness_OperandRegisters :
    (∃ t, exec .vsetf (vec 128 [] 5 20 0xABCDE) = .next t) ∧
    (∃ t, perform (.write 6 1) (fresh 0 0 0) = .next t ∧ t.arg2 ≠ 0) ∧ HostAccess.write 6 1 ≠ .reset :=
  ⟨⟨_, rfl⟩, ⟨_, rfl, by decide⟩, by decide⟩

/-- RESULT changed by VGET (also as a host write to CMD), RESULT1 by BSIZE, and a faulting command. -/
theorem witness_ResultRegisters :
    ((after (exec .vget (vec 32 bits5and9and19 9 0 0))).map fun t => decide (t.result ≠ 0)) = some true ∧
    ((after (perform (.write 2 0x02) (vec 32 bits5and9and19 9 0 0))).map fun t => decide (t.result ≠ 0)) =
      some true ∧
    ((after (exec .bsize (fresh 10 p01 0))).map fun t => decide (t.result1 ≠ 0)) = some true ∧
    ((after (exec .vget (vec 32 [] 32 0 0))).map (·.err)) = some true := by decide +kernel

/-- VINIT and BINIT without a fault, an access that constructs nothing, and reset. -/
theorem witness_CapacityAndHashCount :
    ((after (exec .vinit (fresh 1024 0 0))).map (·.err)) = some false ∧
    ((after (exec .binit (fresh 10 0x3FEFFFFFFFFFFFFF 0))).map (·.err)) = some false ∧
    ((HostAccess.write 2 0x102).mayConstruct params8 = false ∧ (after (perform (.write 2 0x102) faulted)).isSome) ∧
    (after (perform .reset faulted)).isSome := by decide +kernel

theorem witness_ReadsAndIgnoredWrites : Reg.hashcount ∈ [Reg.cfg, .maxcap, .result, .result1, .capacity, .hashcount] := by
  decide

theorem witness_UnassignedRegistersStuck : registerOf 11 = none ∧ registerOf 10 = some .hashcount := by decide

/-- An aligned REG_BASE; an access of a wrong size, and one of 8 bytes that is not aligned. -/
theorem witness_BusRegisterFile :
    (7 < 8) ∧ params8.regBaseAligned = true ∧ ((7 : Nat) ≠ 8 ∧ [0#8, 0, 0, 0, 0, 0, 0].length = 7) ∧
    (0x1001 % 8 ≠ 0 ∧ [0#8, 0, 0, 0, 0, 0, 0, 0].length = 8) := by decide

theorem witness_DecodeIffEncode : (Instr.vset true).wf = true ∧ decode 0x103 = .ok (.vset true) := by decide

theorem witness_IllegalWords : decode 0x15 = .error .unknownOpcode ∧ (fresh 0 0 0).err = false := by decide

/-- Dropped; an illegal word; a legal word MODE forbids; a legal word MODE allows. -/
theorem witness_CommandPrologue :
    faulted.err = true ∧
    ((fresh 0 0 0).err = false ∧ decode 0x101 = .error .immediateOnFormatN) ∧
    (decode 0x12 = .ok .bins ∧ legalIn .bins (vec 8 [] 0 0 0).mode = false) ∧
    (decode 0x14 = .ok .bsize ∧ legalIn .bsize (fresh 0 0 0).mode = true) := by decide

theorem witness_ModeLegality :
    (fresh 0 0 0).err = false ∧ (fresh 0 0 0).mode ≠ .vector ∧ (vec 8 [] 0 0 0).mode ≠ .bloom := by decide

/-- A fault of a command's own and an illegal word. -/
theorem witness_FaultsArePrecise :
    (vec 32 [] 32 0 0).err = false ∧
    ((after (hostWrite 2 0x02 (vec 32 [] 32 0 0))).map (·.err)) = some true ∧
    ((after (hostWrite 2 0x15 (vec 32 [] 32 0 0))).map (·.err)) = some true := by decide

/-- An access that clears the fault and one that does not. -/
theorem witness_FaultClearedOnlyByHost :
    faulted.err = true ∧ ((after (perform (.write 3 1) faulted)).map (·.err)) = some false ∧
    ((after (perform (.write 2 0x14) faulted)).map (·.err)) = some true := by decide

theorem witness_FaultsDoNotNest :
    faulted.err = true ∧ (0xFFFFFFFFFFFFFFFE#64).getLsbD 0 = false ∧
    ((after (perform (.write 3 2) faulted)).map (·.err)) = some true := by decide

/-- The largest legal capacity, and one more. -/
theorem witness_VinitResult :
    (fresh 1024 0 0).err = false ∧
    (fresh 1024 0 0).arg0.toNat ≤ params8.maxCapacityBits.toNat ∧
    params8.maxCapacityBits.toNat < (fresh 1025 0 0).arg0.toNat := by decide

/-- The last bit, and the bit after it. -/
theorem witness_VgetResult :
    (fresh 0 0 0).mode ≠ .vector ∧
    (vec 32 [] 31 0 0).err = false ∧ (vec 32 [] 31 0 0).mode = .vector ∧
    (vec 32 [] 31 0 0).arg0.toNat < (vec 32 [] 31 0 0).capacity.toNat ∧
    (vec 32 [] 32 0 0).capacity.toNat ≤ (vec 32 [] 32 0 0).arg0.toNat := by decide

theorem witness_VsetResult :
    (filter96 [] 0).mode ≠ .vector ∧ (vec 1 [] 0 0 0).err = false ∧ (vec 1 [] 0 0 0).mode = .vector ∧
    (vec 1 [] 0 0 0).arg0.toNat < (vec 1 [] 0 0 0).capacity.toNat ∧
    (vec 0 [] 0 0 0).capacity.toNat ≤ (vec 0 [] 0 0 0).arg0.toNat := by decide

/-- A clamped field that ends at the capacity; length 0; a field one bit past the capacity. -/
theorem witness_VgetfResult :
    (fresh 0 0 0).mode ≠ .vector ∧ (vec 128 [] 64 100 0).err = false ∧ (vec 128 [] 64 100 0).mode = .vector ∧
    (1 ≤ (vec 128 [] 64 100 0).arg1.toNat ∧ (64 : Nat) + min (vec 128 [] 64 100 0).arg1.toNat 64 ≤
      (vec 128 [] 64 100 0).capacity.toNat) ∧
    (vec 128 [] 0 0 0).arg1.toNat = 0 ∧
    (1 ≤ (vec 128 [] 121 8 0).arg1.toNat ∧
      (vec 128 [] 121 8 0).capacity.toNat < 121 + min (vec 128 [] 121 8 0).arg1.toNat 64) := by decide

theorem witness_VsetfResult :
    (filter96 [] 0).mode ≠ .vector ∧ (vec 128 [] 127 1 1).err = false ∧ (vec 128 [] 127 1 1).mode = .vector ∧
    (1 ≤ (vec 128 [] 127 1 1).arg1.toNat ∧ (127 : Nat) + min (vec 128 [] 127 1 1).arg1.toNat 64 ≤
      (vec 128 [] 127 1 1).capacity.toNat) ∧
    (vec 128 [] 0 0 1).arg1.toNat = 0 ∧
    (1 ≤ (vec 128 [] 65 64 1).arg1.toNat ∧
      (vec 128 [] 65 64 1).capacity.toNat < 65 + min (vec 128 [] 65 64 1).arg1.toNat 64) := by decide

theorem witness_VfillResult :
    (filter96 [] 0).mode ≠ .vector ∧ (vec 100 [] 0 0 0).err = false ∧ (vec 100 [] 0 0 0).mode = .vector := by decide

/-- Clauses (a) to (c) meet the hypotheses of the three commands; clause (d) has a read and a faulting write. -/
theorem witness_VectorLaws :
    ((vec 32 [] 31 0 0).err = false ∧ (vec 32 [] 31 0 0).mode = .vector ∧
      (vec 32 [] 31 0 0).arg0.toNat < (vec 32 [] 31 0 0).capacity.toNat) ∧
    (1 ≤ (vec 128 [] 64 64 5).arg1.toNat ∧
      (64 : Nat) + min (vec 128 [] 64 64 5).arg1.toNat 64 ≤ (vec 128 [] 64 64 5).capacity.toNat) ∧
    (99#64).toNat < (vec 100 [] 0 0 0).capacity.toNat ∧
    (after (exec .vgetf (vec 128 [] 64 64 5))).isSome ∧
    ((after (exec (.vset true) (vec 32 [] 32 0 0))).map (·.err)) = some true := by decide +kernel

theorem witness_FreshStructureIsZero :
    ((after (exec .vinit (fresh 1024 0 0))).map fun t => (t.err, t.capacity)) = some (false, 1024) ∧
    ((after (exec .binit (fresh 1 0x3FE0000000000000 0))).map fun t => (t.err, t.capacity)) = some (false, 2) := by
  decide +kernel

theorem witness_BlockLevelRead : (1 ≤ 64 ∧ 64 ≤ 64) ∧ (1 ≤ 1 ∧ 1 ≤ 64) := by decide

theorem witness_BlockLevelWrite :
    (1 ≤ 64 ∧ 64 ≤ 64 ∧ (0xFFFFFFFFFFFFFFFF#64).toNat < 2 ^ 64) ∧ (1 ≤ 1 ∧ 1 ≤ 64 ∧ (1#64).toNat < 2 ^ 1) := by decide

/-- A 100-bit vector with `B = 8` and one with `B = 64` whose padding bits differ. -/
def padded64 : State :=
  { vec 100 [(0, 0x20), (12, 0xF0), (15, 0xFF)] 3 64 0 with params := { params8 with blockWidth := .w64 } }

theorem witness_sameVisible : SameVisible (vec 100 [(0, 0x20)] 3 64 0) padded64 where
  params := rfl
  err := rfl
  errCode := rfl
  errOp := rfl
  mode := rfl
  arg0 := rfl
  arg1 := rfl
  arg2 := rfl
  result := rfl
  result1 := rfl
  capacity := rfl
  hashCount := rfl
  pending := rfl
  replies := rfl
  bits := by decide +kernel

theorem witness_BlockWidthIndependence :
    SameVisible (vec 100 [(0, 0x20)] 3 64 0) padded64 ∧
    ((filter96 [] 42).mode = .bloom → 1 ≤ (filter96 [] 42).capacity.toNat) ∧
    ((vec 100 [(0, 0x20)] 3 64 0).mode = .bloom → 1 ≤ (vec 100 [(0, 0x20)] 3 64 0).capacity.toNat) ∧
    ∃ t, exec .vgetf (vec 100 [(0, 0x20)] 3 64 0) = .next t :=
  ⟨witness_sameVisible, by decide, by decide, ⟨_, rfl⟩⟩

/-- The invariant of R41 in a vector with stored bits. -/
theorem witness_inv_vector : (vec 100 [(0, 0x20)] 3 64 0).Inv where
  params_wf := by decide
  capacity_fits := by decide
  none_empty := by decide
  vector_no_hash := by decide
  bloom_nonempty := by decide
  no_fault_no_record := by decide
  fault_has_code := by decide
  store_wf := by decide
  used_zeroed := by decide
  zeroed_fits := by decide
  cells_zeroed := by decide

/-- The invariant of R41 in a filter with a set bit. -/
theorem witness_inv_filter : (filter96 [(3, 0x80)] 42).Inv where
  params_wf := by decide
  capacity_fits := by decide
  none_empty := by decide
  vector_no_hash := by decide
  bloom_nonempty := by decide
  no_fault_no_record := by decide
  fault_has_code := by decide
  store_wf := by decide
  used_zeroed := by decide
  zeroed_fits := by decide
  cells_zeroed := by decide

/-- Two vectors with the same `B` whose padding and unused bytes differ, and a sequence of accesses. -/
theorem witness_PaddingNeverObserved :
    (vec 100 [(0, 0x20)] 3 64 0).Inv ∧
    SameVisible (vec 100 [(0, 0x20)] 3 64 0) { padded64 with params := params8 } ∧
    ∃ t, performAll [.write 2 0x04, .read 7] (vec 100 [(0, 0x20)] 3 64 0) = .next t :=
  ⟨witness_inv_vector,
    ⟨rfl, rfl, rfl, rfl, rfl, rfl, rfl, rfl, rfl, rfl, rfl, rfl, rfl, rfl, witness_sameVisible.bits⟩, ⟨_, rfl⟩⟩

/-- The ends of the legal patterns, a NaN, the largest subnormal, and the ends of the normal exponents. -/
theorem witness_ErrorRateOperand :
    (1 ≤ (1#64).toNat ∧ (1#64).toNat ≤ 0x3FEFFFFFFFFFFFFF) ∧
    (∃ p, binary64Value 0x3FEFFFFFFFFFFFFF = some p ∧ 0 < p ∧ p < 1) ∧
    ((0x7FF8000000000000#64).extractLsb' 52 11).toNat = 2047 ∧
    ((0x800FFFFFFFFFFFFF#64).extractLsb' 52 11).toNat = 0 ∧
    ((0x0010000000000000#64).extractLsb' 52 11).toNat = 1 ∧
    ((0xFFEFFFFFFFFFFFFF#64).extractLsb' 52 11).toNat = 2046 :=
  ⟨by decide, ⟨binary64Magnitude 0x3FEFFFFFFFFFFFFF, by decide +kernel, by decide +kernel, by decide +kernel⟩,
    by decide, by decide, by decide, by decide⟩

/-- The largest population with the smallest and the largest error rate, and a larger one that the first enclosure
decides. -/
theorem witness_ExactSizeIsRealCeiling :
    (1 ≤ 2 ^ 64 - 1 ∧ 2 ^ 64 - 1 < 2 ^ 64 ∧ binary64Value 1 = some (binary64Magnitude 1) ∧
      0 < binary64Magnitude 1 ∧ binary64Magnitude 1 < 1) ∧
    (binary64Value 0x3FEFFFFFFFFFFFFF = some (binary64Magnitude 0x3FEFFFFFFFFFFFFF) ∧
      0 < binary64Magnitude 0x3FEFFFFFFFFFFFFF ∧ binary64Magnitude 0x3FEFFFFFFFFFFFFF < 1) ∧
    sizeDecided logTerms (2 ^ 64) p01 = true := by decide +kernel

theorem witness_SizeEnclosureIsTight :
    1 ≤ 2 ^ 64 - 1 ∧ 2 ^ 64 - 1 < 2 ^ 64 ∧ errorRateLegal 1 = true ∧ errorRateLegal 0x3FEFFFFFFFFFFFFF = true := by
  decide

theorem witness_ExactHashCountIsRealFloor : 2 ^ 64 - 1 < 2 ^ 64 ∧ 1 ≤ 1 := by decide

theorem witness_FilterSizePositive : 1 ≤ 1 ∧ 1 < 2 ^ 64 ∧ errorRateLegal 0x3FEFFFFFFFFFFFFF = true := by decide

theorem witness_RoundingIsToNearestEven : (0 : ℚ) < 1 / 3 := by norm_num

theorem witness_Binary64SizingForms :
    1 ≤ 1 ∧ errorRateLegal 0x3FEFFFFFFFFFFFFF = true ∧ SizingMode.binary64Recip ≠ .exact ∧ 1 ≤ 1 := by decide

theorem witness_HashCountFitsRegister : 2 ^ 64 - 1 < 2 ^ 64 ∧ 1 ≤ 2 ^ 64 - 1 := by decide

/-- An instance whose store has just the 959 bits that `n = 100`, `p = 0.01` needs (section 2.8), or `cap` bits. -/
def sized (cap a0 a1 : Word) : State :=
  { fresh a0 a1 0 with params := { params8 with maxCapacityBits := cap } }

/-- A filter that just fits, population 0, the error rates 0 and 1, and a filter one bit too large. -/
theorem witness_BinitResult :
    ((sized 959 100 p01).err = false ∧ 1 ≤ (sized 959 100 p01).arg0.toNat ∧ 1 ≤ (sized 959 100 p01).arg1.toNat ∧
      (sized 959 100 p01).arg1.toNat ≤ 0x3FEFFFFFFFFFFFFF ∧
      sizeBits .exact 100 p01 = (sized 959 100 p01).params.maxCapacityBits.toNat) ∧
    (fresh 0 p01 0).arg0.toNat = 0 ∧
    (1 ≤ (fresh 1 0 0).arg0.toNat ∧ ¬(1 ≤ (fresh 1 0 0).arg1.toNat)) ∧
    ¬((fresh 1 0x3FF0000000000000 0).arg1.toNat ≤ 0x3FEFFFFFFFFFFFFF) ∧
    (sized 958 100 p01).params.maxCapacityBits.toNat + 1 = sizeBits .exact 100 p01 := by decide +kernel

/-- As for BINIT; the last one is beyond the 64 bits of RESULT. -/
theorem witness_BsizeResult :
    ((fresh 1 1 0).err = false ∧ 1 ≤ (fresh 1 1 0).arg0.toNat ∧ 1 ≤ (fresh 1 1 0).arg1.toNat ∧
      (fresh 1 1 0).arg1.toNat ≤ 0x3FEFFFFFFFFFFFFF ∧ sizeBits .exact 1 1 ≤ 2 ^ 64 - 1) ∧
    (fresh 0 1 0).arg0.toNat = 0 ∧
    (1 ≤ (fresh 1 0 0).arg0.toNat ∧ ¬(1 ≤ (fresh 1 0 0).arg1.toNat)) ∧
    2 ^ 64 - 1 < sizeBits .exact (2 ^ 64 - 1) p01 := by decide +kernel

/-- A size of 1 bit, and one beyond the 64 bits of RESULT: the premises on the real ceiling, through the integers on
either side of it. -/
theorem witness_BsizeExactFormulas :
    ((fresh 10 0x3FEFFFFFFFFFFFFF 0).err = false ∧ (fresh 10 0x3FEFFFFFFFFFFFFF 0).params.sizingMode = .exact ∧
      1 ≤ (fresh 10 0x3FEFFFFFFFFFFFFF 0).arg0.toNat) ∧
    (binary64Value 0x3FEFFFFFFFFFFFFF = some (binary64Magnitude 0x3FEFFFFFFFFFFFFF) ∧
      0 < binary64Magnitude 0x3FEFFFFFFFFFFFFF ∧ binary64Magnitude 0x3FEFFFFFFFFFFFFF < 1) ∧
    ⌈realSize 10 0x3FEFFFFFFFFFFFFF⌉ ≤ 2 ^ 64 - 1 ∧ 2 ^ 64 - 1 < ⌈realSize (2 ^ 64 - 1) p01⌉ := by
  have low : ⌈realSize 10 0x3FEFFFFFFFFFFFFF⌉ = 1 :=
    (ceil_of_sizeDecided (k := logTerms) (by decide) (by decide) (by decide +kernel)).symm.trans (by decide +kernel)
  have high : ((2 : ℤ) ^ 64 - 1) < ⌈realSize (2 ^ 64 - 1) p01⌉ :=
    lt_of_lt_of_eq (by decide +kernel)
      (ceil_of_sizeDecided (k := logTerms) (by decide) (by decide) (by decide +kernel))
  exact ⟨by decide, by decide +kernel, by rw [low]; norm_num, high⟩

theorem witness_BloomPositions :
    1 ≤ (filter96 [] 42).capacity.toNat ∧ 1 ≤ { filter96 [] 42 with capacity := 1 }.capacity.toNat := by decide

theorem witness_BinsResult :
    (vec 8 [] 0 0 0).mode ≠ .bloom ∧ (filter96 [] 42).err = false ∧ (filter96 [] 42).mode = .bloom := by decide

/-- Every bit set. -/
def fullFilter : State := filter96 ((List.range 12).map fun a => (a, 0xFF)) 42

/-- The full filter meets the first clause, the empty one the second. -/
theorem witness_BlookResult :
    (fresh 0 0 0).mode ≠ .bloom ∧
    (fullFilter.err = false ∧ fullFilter.mode = .bloom ∧
      ∀ hf, hf < fullFilter.hashCount.toNat → fullFilter.store.bit (hashPosition fullFilter hf) = true) ∧
    ((filter96 [] 42).err = false ∧ (filter96 [] 42).mode = .bloom ∧
      ∃ hf, hf < (filter96 [] 42).hashCount.toNat ∧
        (filter96 [] 42).store.bit (hashPosition (filter96 [] 42) hf) = false) := by
  have full : ∀ i, i < 96 → fullFilter.store.bit i = true := by decide +kernel
  have empty : ∀ i, i < 96 → (filter96 [] 42).store.bit i = false := by decide +kernel
  exact ⟨by decide, ⟨by decide, by decide, fun hf _ => full _ (Nat.mod_lt _ (by decide))⟩,
    by decide, by decide, 0, by decide, empty _ (Nat.mod_lt _ (by decide))⟩

theorem witness_EmptyHashCount :
    ({ filter96 [] 42 with hashCount := 0 } : State).err = false ∧
    ({ filter96 [] 42 with hashCount := 0 } : State).mode = .bloom ∧
    ({ filter96 [] 42 with hashCount := 0 } : State).hashCount = 0 := by decide

/-- After BINS, another hash is looked up and ARG0 is set back. -/
theorem witness_NoFalseNegatives :
    (filter96 [] 42).err = false ∧ (filter96 [] 42).mode = .bloom ∧
    (∀ a ∈ [HostAccess.write 4 7, .write 2 0x13, .write 4 42], a.mayConstruct params8 = false) ∧
    ∃ t u, exec .bins (filter96 [] 42) = .next t ∧
      performAll [.write 4 7, .write 2 0x13, .write 4 42] t = .next u ∧ u.err = false ∧
      u.arg0 = (filter96 [] 42).arg0 :=
  ⟨by decide, by decide, by decide, _, _, rfl, rfl, rfl, rfl⟩

theorem witness_InsertOrderIrrelevant :
    (filter96 [] 0).err = false ∧ (filter96 [] 0).mode = .bloom ∧
    (∀ h : Word, h ∈ [42#64, 7#64] ↔ h ∈ [7#64, 42#64, 7#64]) ∧ (filter96 [] 0).store.wf = true :=
  ⟨by decide, by decide, fun h => by simp only [List.mem_cons, List.not_mem_nil]; tauto, by decide⟩

theorem witness_BloomStoreMonotone :
    (∃ t, perform (.write 2 0x12) (filter96 [(3, 0x80)] 42) = .next t) ∧ (filter96 [(3, 0x80)] 42).mode = .bloom ∧
    (HostAccess.write 2 0x12).mayConstruct params8 = false ∧
    ∃ t, exec .blook (filter96 [(3, 0x80)] 42) = .next t ∧ t.err = false :=
  ⟨⟨_, rfl⟩, by decide, by decide, ⟨_, rfl, rfl⟩⟩

theorem witness_InvariantAtReset : params8.wf = true := by decide

/-- A store into a vector, and an insert into a filter. -/
theorem witness_InvariantKept :
    (vec 100 [(0, 0x20)] 3 64 0).Inv ∧ (filter96 [(3, 0x80)] 42).Inv ∧
    (∃ t, step ((vec 100 [(0, 0x20)] 3 64 0).withFetchWord 64 0x103) = .next t) ∧
    ∃ t, step ((filter96 [(3, 0x80)] 42).withFetchWord 64 0x12) = .next t :=
  ⟨witness_inv_vector, witness_inv_filter, ⟨_, rfl⟩, ⟨_, rfl⟩⟩

theorem witness_StepRunsTheDecodedCommand :
    decode 0x103 = .ok (.vset true) ∧
    ({ vec 100 [] 3 0 0 with pending := [.write 2 0x103, .read 7] } : State).pending = [.write 2 0x103, .read 7] ∧
    (vec 100 [] 3 0 0).pending = [] := by decide

theorem witness_ReadingAgentIsHarmless :
    Interleaves [.write 4 5, .write 2 0x01] [.read 7] [.write 4 5, .read 7, .write 2 0x01] ∧
    (∀ b ∈ [HostAccess.read 7], b.isRead = true) ∧
    ∃ t, performAll [.write 4 5, .read 7, .write 2 0x01] (fresh 0 0 0) = .next t :=
  ⟨.left (.right (.left .nil)), by decide, ⟨_, rfl⟩⟩

end Sys2Proof.Machine.Test
end

section
/-! ### The binary64 rounding of the sizing unit: positive, and within one part in `2^53` (41_bloom.md R143) -/

namespace Sys2Proof.Machine

theorem twoPow_eq_zpow (e : Int) : twoPow e = (2 : ℚ) ^ e := by
  cases e with
  | ofNat k => simp [twoPow]
  | negSucc k => simp [twoPow, zpow_negSucc]

/-- The exponent the rounding works with does not overshoot: a rational lies above half the ratio of the leading
powers of two of its numerator and denominator. -/
theorem twoPow_binaryExponent_le {q : ℚ} (hq : 0 < q) : twoPow (binaryExponent q) ≤ q := by
  unfold binaryExponent
  dsimp only
  split
  · have hnum : (0 : ℤ) < q.num := Rat.num_pos.mpr hq
    have hn : 2 ^ Nat.log2 q.num.natAbs ≤ q.num.natAbs := Nat.log2_self_le (by omega)
    have hd : q.den < 2 ^ (Nat.log2 q.den + 1) := Nat.lt_log2_self
    have hq' : q = (q.num.natAbs : ℚ) / q.den := by
      conv_lhs => rw [← Rat.num_div_den q]
      rw [← Int.cast_natCast q.num.natAbs, Int.natAbs_of_nonneg hnum.le]
    rw [twoPow_eq_zpow, sub_sub, zpow_sub₀ two_ne_zero, zpow_natCast, ← Nat.cast_succ, zpow_natCast]
    conv_rhs => rw [hq']
    have hn' : (2 : ℚ) ^ Nat.log2 q.num.natAbs ≤ q.num.natAbs := by exact_mod_cast hn
    have hd' : (q.den : ℚ) ≤ 2 ^ (Nat.log2 q.den + 1) := by exact_mod_cast hd.le
    have hden : (0 : ℚ) < q.den := by exact_mod_cast q.den_pos
    gcongr
  · next h => exact not_lt.mp h

theorem abs_roundHalfEven_sub_le (x : ℚ) : |(roundHalfEven x : ℚ) - x| ≤ 1 / 2 := by
  have h0 : (x.floor : ℚ) ≤ x := Int.floor_le x
  have h1 : x < x.floor + 1 := Int.lt_floor_add_one x
  unfold roundHalfEven
  dsimp only
  rw [abs_le]
  split
  · constructor <;> linarith
  · split
    · push_cast; constructor <;> linarith
    · split <;> push_cast <;> constructor <;> linarith

theorem roundBinary64_zero : roundBinary64 0 = 0 := by
  have hfloor : (0 : ℚ).floor = 0 := Rat.floor_intCast 0
  have h : roundHalfEven 0 = 0 := by simp [roundHalfEven, hfloor]
  simp [roundBinary64, h]

/-- Rounding moves a value by at most one part in `2^53`. -/
theorem abs_roundBinary64_sub_le {q : ℚ} (hq : 0 ≤ q) : |roundBinary64 q - q| ≤ q / 2 ^ 53 := by
  rcases hq.eq_or_lt with rfl | hq
  · simp [roundBinary64_zero]
  have hulp : twoPow (binaryExponent q - 52) ≤ q / 2 ^ 52 := by
    have h := twoPow_binaryExponent_le hq
    rw [twoPow_eq_zpow] at h ⊢
    rw [zpow_sub₀ two_ne_zero]
    exact div_le_div_of_nonneg_right h (by positivity)
  have hpos : 0 < twoPow (binaryExponent q - 52) := by rw [twoPow_eq_zpow]; positivity
  unfold roundBinary64
  dsimp only
  generalize twoPow (binaryExponent q - 52) = ulp at hulp hpos
  calc |(roundHalfEven (q / ulp) : ℚ) * ulp - q|
      = |(roundHalfEven (q / ulp) : ℚ) - q / ulp| * ulp := by
        rw [← abs_of_pos hpos, ← abs_mul, abs_of_pos hpos, sub_mul, div_mul_cancel₀ _ hpos.ne']
    _ ≤ 1 / 2 * (q / 2 ^ 52) := mul_le_mul (abs_roundHalfEven_sub_le _) hulp hpos.le (by norm_num)
    _ = q / 2 ^ 53 := by ring

theorem roundBinary64_le {q : ℚ} (hq : 0 ≤ q) : roundBinary64 q ≤ q * (1 + 1 / 2 ^ 53) := by
  have h := (abs_le.mp (abs_roundBinary64_sub_le hq)).2
  linarith

theorem le_roundBinary64 {q : ℚ} (hq : 0 ≤ q) : q * (1 - 1 / 2 ^ 53) ≤ roundBinary64 q := by
  have h := (abs_le.mp (abs_roundBinary64_sub_le hq)).1
  linarith

theorem roundBinary64_nonneg {q : ℚ} (hq : 0 ≤ q) : 0 ≤ roundBinary64 q :=
  (mul_nonneg hq (by norm_num)).trans (le_roundBinary64 hq)

theorem roundBinary64_pos {q : ℚ} (hq : 0 < q) : 0 < roundBinary64 q :=
  lt_of_lt_of_le (mul_pos hq (by norm_num)) (le_roundBinary64 hq.le)

/-! ### The range of LN64 (log 5) -/

theorem clamp_mem {lo hi : Word} (h : lo.toNat ≤ hi.toNat) (x : Word) :
    lo.toNat ≤ (Config.clamp lo hi x).toNat ∧ (Config.clamp lo hi x).toNat ≤ hi.toNat := by
  unfold Config.clamp
  split
  · exact ⟨le_rfl, h⟩
  · next hlo =>
    split
    · exact ⟨h, le_rfl⟩
    · next hhi => exact ⟨Nat.le_of_not_lt hlo, Nat.le_of_not_lt hhi⟩

theorem exponentField_eq (w : Word) : exponentField w = w.toNat / 2 ^ 52 % 2 ^ 11 := by
  simp [exponentField, BitVec.extractLsb'_toNat, Nat.shiftRight_eq_div_pow]

theorem fractionField_eq (w : Word) : fractionField w = w.toNat % 2 ^ 52 := by
  simp [fractionField, BitVec.extractLsb'_toNat]

/-- The sign bit is no part of the exponent. -/
theorem exponentField_or_sign (w : Word) : exponentField (0x8000000000000000 ||| w) = exponentField w := by
  unfold exponentField
  rw [BitVec.extractLsb'_or, show (0x8000000000000000 : Word).extractLsb' 52 11 = 0#11 from rfl, BitVec.zero_or]

/-- The exponent of `LN64(2.0)`: the value lies in `[0.5, 1)`. -/
theorem exponentField_ln64_two : exponentField (Config.ln64 0x4000000000000000) = 1022 := by
  have h := clamp_mem (lo := 0x3FE0000000000000) (hi := 0x3FE8000000000000) (by decide)
    (Config.ln64Raw 0x4000000000000000)
  simp only [BitVec.reduceToNat] at h
  rw [Config.ln64, if_pos rfl, exponentField_eq]
  omega

/-- No logarithm LN64 answers is a zero or a subnormal. -/
theorem exponentField_ln64_ne_zero (x : Word) : exponentField (Config.ln64 x) ≠ 0 := by
  by_cases hx : x = 0x4000000000000000
  · rw [hx, exponentField_ln64_two]
    decide
  · have h := clamp_mem (lo := 0x3C90000000000000) (hi := 0x4090000000000000) (by decide) (Config.ln64Raw x)
    simp only [BitVec.reduceToNat] at h
    rw [Config.ln64, if_neg hx, exponentField_or_sign, exponentField_eq]
    omega

theorem binary64Magnitude_pos {w : Word} (h : exponentField w ≠ 0) : 0 < binary64Magnitude w := by
  unfold binary64Magnitude significand
  rw [if_neg h]
  positivity

theorem ln64Negated_pos (pb : Word) : 0 < ln64Negated pb := binary64Magnitude_pos (exponentField_ln64_ne_zero pb)

theorem ln64Two_pos : 0 < ln64Two := binary64Magnitude_pos (exponentField_ln64_ne_zero _)

theorem ln64Two_le : ln64Two ≤ 3 / 4 := by
  have hf : 2 ^ 52 + fractionField (Config.ln64 0x4000000000000000) ≤ 3 * 2 ^ 51 := by
    have h := clamp_mem (lo := 0x3FE0000000000000) (hi := 0x3FE8000000000000) (by decide)
      (Config.ln64Raw 0x4000000000000000)
    simp only [BitVec.reduceToNat] at h
    rw [Config.ln64, if_pos rfl, fractionField_eq]
    omega
  have hf' : ((2 ^ 52 + fractionField (Config.ln64 0x4000000000000000) : ℕ) : ℚ) ≤ (3 * 2 ^ 51 : ℕ) := by
    exact_mod_cast hf
  unfold ln64Two binary64Magnitude significand
  rw [exponentField_ln64_two, if_neg (by decide), show 1075 = 53 + max 1022 1 from rfl, pow_add,
    Nat.cast_mul, Nat.cast_mul, mul_div_mul_right _ _ (by positivity), div_le_iff₀ (by norm_num)]
  exact hf'.trans (by norm_num)

/-! ### `m >= 1` and `k < 2^64` in every SIZING_MODE (R142, R144) -/

theorem one_le_ceil_toNat {q : ℚ} (hq : 0 < q) : 1 ≤ q.ceil.toNat := by
  have h : 0 < q.ceil := by rw [rat_ceil_eq]; exact Int.ceil_pos.mpr hq
  omega

theorem realSize_pos {n : Nat} {pb : Word} (hn : 1 ≤ n) (h : errorRateLegal pb = true) : 0 < realSize n pb :=
  lt_of_lt_of_le (by exact_mod_cast sizeLower_pos one_pos hn pb) (sizeLower_le 1 one_pos h)

theorem exactSizeBits_pos {n : Nat} {pb : Word} (hn : 1 ≤ n) (h : errorRateLegal pb = true) :
    1 ≤ exactSizeBits n pb := by
  have hlow := one_le_ceil_toNat (sizeLower_pos (k := logTerms) (by decide) hn pb)
  unfold exactSizeBits
  split
  · exact hlow
  · split
    · next size hs =>
      have hc : 0 < ⌈realSize n pb⌉ := Int.ceil_pos.mpr (realSize_pos hn h)
      rw [sizeSearch_some h (Nat.succ_pos _) hs]
      omega
    · exact hlow

/-- R142: every filter has at least one bit. -/
theorem sizeBits_pos (mode : SizingMode) {n : Nat} {pb : Word} (hn : 1 ≤ n) (h : errorRateLegal pb = true) :
    1 ≤ sizeBits mode n pb := by
  have hproduct : 0 < roundBinary64 (ln64Negated pb * roundBinary64 (n : ℚ)) :=
    roundBinary64_pos (mul_pos (ln64Negated_pos pb) (roundBinary64_pos (by exact_mod_cast hn)))
  have hsquare : 0 < roundBinary64 (ln64Two * ln64Two) := roundBinary64_pos (mul_pos ln64Two_pos ln64Two_pos)
  cases mode with
  | exact => exact exactSizeBits_pos hn h
  | binary64Recip =>
    exact one_le_ceil_toNat (roundBinary64_pos (mul_pos hproduct (roundBinary64_pos (one_div_pos.mpr hsquare))))
  | binary64Div => exact one_le_ceil_toNat (roundBinary64_pos (div_pos hproduct hsquare))

theorem floor_toNat_lt {q : ℚ} {b : Nat} (hb : 0 < b) (hq : q < b) : q.floor.toNat < b := by
  have h : q.floor < b := Int.floor_lt.mpr (by exact_mod_cast hq)
  omega

theorem exactHashCount_lt {m n : Nat} (hm : m < 2 ^ 64) (hn : 1 ≤ n) : exactHashCount m n < 2 ^ 64 := by
  have hl0 : 0 < ln2Lower logTerms := ln2Lower_pos (by decide)
  have hl1 : ln2Lower logTerms ≤ 1 := by
    have h := ln2Upper_lt
    rw [ln2Upper_eq] at h
    have : (0 : ℚ) < 1 / 2 ^ logTerms := by positivity
    linarith
  have hn' : (1 : ℚ) ≤ n := by exact_mod_cast hn
  refine floor_toNat_lt (by norm_num) (lt_of_le_of_lt ?_ (by exact_mod_cast hm : (m : ℚ) < (2 ^ 64 : ℕ)))
  rw [div_le_iff₀ (by linarith)]
  exact mul_le_mul_of_nonneg_left (hl1.trans hn') (Nat.cast_nonneg m)

/-- `ln(2)` is at most 3/4, so the quotient keeps a fifth of the register in hand, more than the four roundings add. -/
theorem binary64HashCount_lt {m n : Nat} (hm : m < 2 ^ 64) (hn : 1 ≤ n) :
    binary64HashCount ln64Two m n < 2 ^ 64 := by
  have hm0 : (0 : ℚ) ≤ m := Nat.cast_nonneg m
  have hm' : (m : ℚ) < 2 ^ 64 := by exact_mod_cast hm
  have hn' : (1 : ℚ) ≤ n := by exact_mod_cast hn
  have hfilter := roundBinary64_le hm0
  have hpop := le_roundBinary64 (q := n) (by linarith)
  have hscaled0 : 0 ≤ roundBinary64 (m : ℚ) * ln64Two := mul_nonneg (roundBinary64_nonneg hm0) ln64Two_pos.le
  have hscaled := mul_le_mul hfilter ln64Two_le ln64Two_pos.le (by positivity)
  have hproduct := roundBinary64_le hscaled0
  have hproduct0 := roundBinary64_nonneg hscaled0
  unfold binary64HashCount
  refine floor_toNat_lt (by norm_num) ?_
  generalize roundBinary64 (roundBinary64 (m : ℚ) * ln64Two) = product at *
  generalize roundBinary64 (n : ℚ) = pop at *
  have hquotient : product / pop ≤ 4 / 5 * 2 ^ 64 := by
    rw [div_le_iff₀ (by linarith)]
    nlinarith
  have h := roundBinary64_le (div_nonneg hproduct0 (by linarith : 0 ≤ pop))
  push_cast
  linarith

/-- R144: RESULT1 and HASHCOUNT hold the whole of `k`. -/
theorem sizedHashCount_lt (mode : SizingMode) {m n : Nat} (hm : m < 2 ^ 64) (hn : 1 ≤ n) :
    sizedHashCount mode m n < 2 ^ 64 := by
  cases mode with
  | exact => exact exactHashCount_lt hm hn
  | binary64Recip => exact binary64HashCount_lt hm hn
  | binary64Div => exact binary64HashCount_lt hm hn

end Sys2Proof.Machine
end

section
/-! ### What a command and an access leave unchanged, said once

`CommandFrame` says it of a command; `AccessEffect` names what an access of the host does, so that a claim about every
access has one case for each. -/

namespace Sys2Proof.Machine

/-- What the command `i`, run from `s` to `t`, may write: the fault record and the store, RESULT and RESULT1 by the
commands of R29, MODE, CAPACITY and HASHCOUNT by the two that construct (R31). -/
structure CommandFrame (i : Instr) (s t : State) : Prop where
  params : t.params = s.params
  arg0 : t.arg0 = s.arg0
  arg1 : t.arg1 = s.arg1
  arg2 : t.arg2 = s.arg2
  pending : t.pending = s.pending
  replies : t.replies = s.replies
  result : t.result ≠ s.result → i = .vget ∨ i = .vgetf ∨ i = .blook ∨ i = .bsize
  result1 : t.result1 ≠ s.result1 → i = .bsize
  structural : i ≠ .vinit → i ≠ .binit → t.mode = s.mode ∧ t.capacity = s.capacity ∧ t.hashCount = s.hashCount

/-- A rule that succeeds keeps the fault record. -/
structure SameRecord (s t : State) : Prop where
  err : t.err = s.err
  errCode : t.errCode = s.errCode
  errOp : t.errOp = s.errOp

theorem CommandFrame.refl (i : Instr) (s : State) : CommandFrame i s s := by
  constructor <;> simp

theorem CommandFrame.raiseFault (i : Instr) (f : FaultCode) (op : BitVec 8) (s : State) :
    CommandFrame i s (raiseFault f op s) := by
  constructor <;> simp

theorem ruleOf_frame {i : Instr} {s t : State} (h : ruleOf i s = .ok t) : CommandFrame i s t ∧ SameRecord s t := by
  cases i with
  | vinit => obtain ⟨_, rfl⟩ := vinitRule_ok h; constructor <;> constructor <;> simp
  | vget => obtain ⟨_, rfl⟩ := vgetRule_ok h; constructor <;> constructor <;> simp
  | vset v => obtain ⟨_, rfl⟩ := vsetRule_ok h; constructor <;> constructor <;> simp
  | vgetf => obtain ⟨_, _, rfl⟩ := vgetfRule_ok h; constructor <;> constructor <;> simp
  | vsetf => obtain ⟨_, _, rfl⟩ := vsetfRule_ok h; constructor <;> constructor <;> simp
  | vfill v => obtain rfl := vfillRule_ok h; constructor <;> constructor <;> simp
  | binit => obtain ⟨_, _, _, rfl⟩ := binitRule_ok h; constructor <;> constructor <;> simp
  | bins => obtain rfl := binsRule_ok h; constructor <;> constructor <;> simp
  | blook => obtain rfl := blookRule_ok h; constructor <;> constructor <;> simp
  | bsize => obtain ⟨_, _, _, rfl⟩ := bsizeRule_ok h; constructor <;> constructor <;> simp

/-- A command is dropped, enters a fault, or runs its rule: the fault of MODE and its rule's own are one case. -/
theorem exec_outcome {i : Instr} {s t : State} (h : exec i s = .next t) :
    (s.err = true ∧ t = s) ∨ (s.err = false ∧ ∃ f, t = raiseFault f i.opcode s) ∨
    (s.err = false ∧ legalIn i s.mode = true ∧ ruleOf i s = .ok t) := by
  rcases exec_cases h with hd | ⟨he, _, ht⟩ | ⟨he, _, f, _, ht⟩ | hr
  · exact .inl hd
  · exact .inr (.inl ⟨he, _, ht⟩)
  · exact .inr (.inl ⟨he, f, ht⟩)
  · exact .inr (.inr hr)

theorem exec_frame {i : Instr} {s t : State} (h : exec i s = .next t) : CommandFrame i s t := by
  rcases exec_outcome h with ⟨_, rfl⟩ | ⟨_, f, rfl⟩ | ⟨_, _, hr⟩
  · exact .refl i _
  · exact .raiseFault i f _ _
  · exact (ruleOf_frame hr).1

/-- A command changes the fault record only by entering a fault (R182). -/
theorem exec_record {i : Instr} {s t : State} (h : exec i s = .next t) :
    SameRecord s t ∨ (s.err = false ∧ t.err = true) := by
  rcases exec_outcome h with ⟨_, rfl⟩ | ⟨he, f, rfl⟩ | ⟨_, _, hr⟩
  · exact .inl ⟨rfl, rfl, rfl⟩
  · exact .inr ⟨he, rfl⟩
  · exact .inl (ruleOf_frame hr).2

/-- A command after which ERR = 1 was dropped or faulted, and wrote neither result register (R29). -/
theorem exec_results_of_err {i : Instr} {s t : State} (h : exec i s = .next t) (ht : t.err = true) :
    t.result = s.result ∧ t.result1 = s.result1 := by
  rcases exec_outcome h with ⟨_, rfl⟩ | ⟨_, f, rfl⟩ | ⟨he, _, hr⟩
  · exact ⟨rfl, rfl⟩
  · exact ⟨rfl, rfl⟩
  · exact absurd ht (by rw [(ruleOf_frame hr).2.err, he]; decide)

/-- A command that starts and ends without a fault ran its rule. -/
theorem ruleOf_ok_of_exec {i : Instr} {s t : State} (h : exec i s = .next t) (hs : s.err = false)
    (ht : t.err = false) : ruleOf i s = .ok t := by
  rcases exec_outcome h with ⟨he, _⟩ | ⟨_, f, rfl⟩ | ⟨_, _, hr⟩
  · exact absurd he (by simp [hs])
  · exact absurd ht (by simp)
  · exact hr

/-- What an access `a` that is not refused makes of the state `s` (R195): a write that the fault record, or the
register itself, makes the block ignore is the last case. -/
inductive AccessEffect (a : HostAccess) (s : State) : State → Prop where
  | reset (ha : a = .reset) : AccessEffect a s (resetBlock s)
  | reply (x : Reply) : AccessEffect a s { s with replies := s.replies ++ [x] }
  | command (i : Instr) (t : State) (hc : a.commandOf s.params = some i) (hx : exec i s = .next t) :
      AccessEffect a s t
  | illegal (c : Word) (he : s.err = false) : AccessEffect a s (raiseFault .illegal (opField c) s)
  | cleared (hc : a.clearsFault s.params = true) : AccessEffect a s (clearFault s)
  | arg0 (v : Word) (hw : a.registerWrite s.params = some (4, v)) : AccessEffect a s { s with arg0 := v }
  | arg1 (v : Word) (hw : a.registerWrite s.params = some (5, v)) : AccessEffect a s { s with arg1 := v }
  | arg2 (v : Word) (hw : a.registerWrite s.params = some (6, v)) : AccessEffect a s { s with arg2 := v }
  | ignored : AccessEffect a s s

theorem commandOf_of_registerWrite {p : Params} {a : HostAccess} {c : Word} {i : Instr}
    (hw : a.registerWrite p = some (2, c)) (hd : decode c = .ok i) : a.commandOf p = some i := by
  simp only [HostAccess.commandOf, hw, hd]

theorem clearsFault_of_registerWrite {p : Params} {a : HostAccess} {v : Word}
    (hw : a.registerWrite p = some (3, v)) (hv : v.getLsbD 0 = true) : a.clearsFault p = true := by
  simp only [HostAccess.clearsFault, hw, hv, Bool.or_true]

theorem clearsFault_reset (p : Params) : HostAccess.clearsFault p .reset = true := rfl

theorem mayConstruct_reset (p : Params) : HostAccess.mayConstruct p .reset = true := rfl

theorem mayConstruct_of_commandOf {p : Params} {a : HostAccess} {i : Instr} (hc : a.commandOf p = some i)
    (hi : i = .vinit ∨ i = .binit) : a.mayConstruct p = true := by
  rcases hi with rfl | rfl <;> simp [HostAccess.mayConstruct, hc]

theorem statusWrite_of_set {v : Word} (hv : v.getLsbD 0 = true) (s : State) : statusWrite v s = clearFault s :=
  if_pos hv

theorem statusWrite_of_clear {v : Word} (hv : v.getLsbD 0 = false) (s : State) : statusWrite v s = s :=
  if_neg (Bool.eq_false_iff.mp hv)

theorem illegalCommand_of_err {s : State} (he : s.err = true) (c : Word) : illegalCommand c s = s := if_pos he

theorem illegalCommand_of_no_err {s : State} (he : s.err = false) (c : Word) :
    illegalCommand c s = raiseFault .illegal (opField c) s := if_neg (Bool.eq_false_iff.mp he)

theorem effect_of_perform {a : HostAccess} {s t : State} (h : perform a s = .next t) : AccessEffect a s t := by
  rcases perform_cases h with ⟨ha, rfl⟩ | ⟨_, _, _, x, rfl⟩ | ⟨r, v, hw, _, hr⟩
  · exact .reset ha
  · exact .reply x
  · rcases writeReg_cases hr with ⟨rfl, i, hd, hx⟩ | ⟨_, _, rfl⟩ | ⟨rfl, rfl⟩ | ⟨rfl, rfl⟩ | ⟨rfl, rfl⟩ |
      ⟨rfl, rfl⟩ | ⟨_, rfl⟩
    · exact .command i t (commandOf_of_registerWrite hw hd) hx
    · cases he : s.err with
      | true => rw [illegalCommand_of_err he]; exact .ignored
      | false => rw [illegalCommand_of_no_err he]; exact .illegal v he
    · cases hv : v.getLsbD 0 with
      | true => rw [statusWrite_of_set hv]; exact .cleared (clearsFault_of_registerWrite hw hv)
      | false => rw [statusWrite_of_clear hv]; exact .ignored
    · exact .arg0 v hw
    · exact .arg1 v hw
    · exact .arg2 v hw
    · exact .ignored

theorem perform_params {a : HostAccess} {s t : State} (h : perform a s = .next t) : t.params = s.params := by
  cases effect_of_perform h with
  | command i t hc hx => exact (exec_frame hx).params
  | reset | reply | illegal | cleared | arg0 | arg1 | arg2 | ignored => rfl

theorem step_of_cons {s : State} {a : HostAccess} {rest : List HostAccess} (h : s.pending = a :: rest) :
    step s = perform a { s with pending := rest } := by
  rw [step, h]

theorem step_of_nil {s : State} (h : s.pending = []) : step s = .next s := by
  rw [step, h]

/-- A step is idle or performs the first pending access. -/
theorem step_cases {s t : State} (h : step s = .next t) :
    t = s ∨ ∃ a rest, s.pending = a :: rest ∧ perform a { s with pending := rest } = .next t := by
  cases hp : s.pending with
  | nil =>
    rw [step_of_nil hp] at h
    injection h with h
    exact .inl h.symm
  | cons a rest => exact .inr ⟨a, rest, rfl, step_of_cons hp ▸ h⟩

theorem step_params {s t : State} (h : step s = .next t) : t.params = s.params := by
  rcases step_cases h with rfl | ⟨a, rest, _, hp⟩
  · rfl
  · exact perform_params (s := { s with pending := rest }) hp

end Sys2Proof.Machine
end

section
/-! ### The invariant of R41 through every update of the state -/

namespace Sys2Proof.Machine

variable {s t : State}

theorem faultCode_range (f : FaultCode) : 1 ≤ f.code.toNat ∧ f.code.toNat ≤ 7 := by cases f <;> decide

theorem bytesInUse_zero (p : Params) : bytesInUse p 0 = 0 := by
  unfold bytesInUse blocksInUse
  cases p.blockWidth <;> rfl

theorem inv_resetWith {p : Params} (hp : p.wf = true) : (State.resetWith p).Inv where
  params_wf := hp
  capacity_fits := Nat.zero_le _
  none_empty _ := ⟨rfl, rfl⟩
  vector_no_hash _ := rfl
  bloom_nonempty hm := nomatch hm
  no_fault_no_record _ := ⟨rfl, rfl⟩
  fault_has_code he := nomatch he
  store_wf := rfl
  used_zeroed := (bytesInUse_zero p).le
  zeroed_fits := Nat.zero_le _
  cells_zeroed _ hc := nomatch hc

theorem State.Inv.raiseFault (h : s.Inv) (f : FaultCode) (op : BitVec 8) : (raiseFault f op s).Inv :=
  { h with no_fault_no_record := nofun, fault_has_code := fun _ => faultCode_range f }

theorem State.Inv.clearFault (h : s.Inv) : (clearFault s).Inv :=
  { h with no_fault_no_record := fun _ => ⟨rfl, rfl⟩, fault_has_code := nofun }

theorem State.Inv.byte_zeroed (h : s.Inv) {i : Nat} (hi : i < s.capacity.toNat) : i / 8 < s.store.zeroed :=
  (div_lt_bytesInUse s.params hi).trans_le h.used_zeroed

/-- A store operation keeps the invariant when it keeps the canonical form and lists nothing past what is zeroed. -/
theorem State.Inv.withStore (h : s.Inv) {m : Memory} (hwf : m.wf = true) (hz : m.zeroed = s.store.zeroed)
    (hc : ∀ c ∈ m.cells, c.1 < m.zeroed) : State.Inv { s with store := m } :=
  { h with
    store_wf := hwf
    used_zeroed := hz ▸ h.used_zeroed
    zeroed_fits := hz ▸ h.zeroed_fits
    cells_zeroed := hc }

theorem State.Inv.resetBlock (h : s.Inv) : (resetBlock s).Inv :=
  { (inv_resetWith h.params_wf).withStore (m := { cells := [], zeroed := 0, epoch := s.store.epoch + 1 })
      rfl rfl nofun with }

/-- VINIT and BINIT keep the invariant when the new structure fits and MODE allows its two counts. -/
theorem State.Inv.construct (h : s.Inv) {cap k : Word} {mode : Mode}
    (hfit : cap.toNat ≤ s.params.maxCapacityBits.toNat)
    (hnone : mode ≠ .none) (hvector : mode = .vector → k = 0) (hbloom : mode = .bloom → 1 ≤ cap.toNat) :
    State.Inv { s with
      store := s.store.zeroBelow (bytesInUse s.params cap.toNat)
      capacity := cap
      hashCount := k
      mode := mode } :=
  { h with
    capacity_fits := hfit
    none_empty := fun hm => absurd hm hnone
    vector_no_hash := hvector
    bloom_nonempty := hbloom
    store_wf := zeroBelow_wf _ _ h.store_wf
    used_zeroed := le_max_right _ _
    zeroed_fits := max_le h.zeroed_fits (bytesInUse_mono _ hfit)
    cells_zeroed := zeroBelow_cells_lt h.cells_zeroed }

theorem setAllBelow_zeroed {m : Memory} {n : Nat} (hn : n ≤ m.zeroed) (v : Bool) :
    (m.setAllBelow n v).zeroed = m.zeroed := by
  cases v <;> simp [Memory.setAllBelow, hn]

theorem setAllBelow_cells_lt {m : Memory} {n : Nat} (h : ∀ c ∈ m.cells, c.1 < m.zeroed) (hn : n ≤ m.zeroed)
    (v : Bool) : ∀ c ∈ (m.setAllBelow n v).cells, c.1 < (m.setAllBelow n v).zeroed := by
  cases v with
  | false => exact zeroBelow_cells_lt h
  | true => exact fillBelow_cells_lt h hn

theorem State.Inv.memWrite (h : s.Inv) {i n : Nat} (hi : i + n ≤ s.capacity.toNat) (v : Word) :
    State.Inv { s with store := memWrite s.store i n v } :=
  h.withStore (memWrite_wf _ _ _ _ h.store_wf) (memWrite_zeroed ..)
    (memWrite_cells_lt h.cells_zeroed fun _ _ => h.byte_zeroed (by omega))

theorem filterSize_pos (hn : 1 ≤ s.arg0.toNat) (hp : errorRateLegal s.arg1 = true) : 1 ≤ filterSize s :=
  sizeBits_pos _ hn hp

theorem toNat_filterSize (hm : filterSize s ≤ s.params.maxCapacityBits.toNat) :
    (BitVec.ofNat 64 (filterSize s)).toNat = filterSize s :=
  Nat.mod_eq_of_lt (hm.trans_lt s.params.maxCapacityBits.isLt)

theorem ruleOf_keeps_inv {i : Instr} (h : s.Inv) (hl : legalIn i s.mode = true) (hr : ruleOf i s = .ok t) :
    t.Inv := by
  cases i with
  | vinit =>
    obtain ⟨hfit, rfl⟩ := vinitRule_ok hr
    exact h.construct hfit nofun (fun _ => rfl) nofun
  | binit =>
    obtain ⟨hn, hp, hfit, rfl⟩ := binitRule_ok hr
    have hsize := toNat_filterSize hfit
    have hinv := h.construct (cap := BitVec.ofNat 64 (filterSize s)) (k := BitVec.ofNat 64 (filterHashCount s))
      (mode := .bloom) (hsize.trans_le hfit) nofun nofun (fun _ => (filterSize_pos hn hp).trans_eq hsize.symm)
    rwa [hsize] at hinv
  | vset v =>
    obtain ⟨hi, rfl⟩ := vsetRule_ok hr
    exact h.memWrite hi _
  | vsetf =>
    obtain ⟨_, hi, rfl⟩ := vsetfRule_ok hr
    exact h.memWrite hi _
  | vfill v =>
    obtain rfl := vfillRule_ok hr
    exact h.withStore (setAllBelow_wf _ _ _ h.store_wf) (setAllBelow_zeroed h.used_zeroed v)
      (setAllBelow_cells_lt h.cells_zeroed h.used_zeroed v)
  | bins =>
    obtain rfl := binsRule_ok hr
    have hcap : 1 ≤ s.capacity.toNat := h.bloom_nonempty (by simpa [legalIn] using hl)
    exact h.withStore (setPositions_wf _ _ _ h.store_wf) (setPositions_zeroed ..)
      (setPositions_cells_lt h.cells_zeroed fun hf _ => h.byte_zeroed (hashPosition_lt s hf hcap))
  | vget => obtain ⟨_, rfl⟩ := vgetRule_ok hr; exact { h with }
  | vgetf => obtain ⟨_, _, rfl⟩ := vgetfRule_ok hr; exact { h with }
  | blook => obtain rfl := blookRule_ok hr; exact { h with }
  | bsize => obtain ⟨_, _, _, rfl⟩ := bsizeRule_ok hr; exact { h with }

theorem exec_keeps_inv {i : Instr} (h : s.Inv) (hx : exec i s = .next t) : t.Inv := by
  rcases exec_outcome hx with ⟨_, rfl⟩ | ⟨_, f, rfl⟩ | ⟨_, hl, hr⟩
  · exact h
  · exact h.raiseFault f _
  · exact ruleOf_keeps_inv h hl hr

theorem perform_keeps_inv {a : HostAccess} (h : s.Inv) (hp : perform a s = .next t) : t.Inv := by
  cases effect_of_perform hp with
  | reset => exact h.resetBlock
  | command i t _ hx => exact exec_keeps_inv h hx
  | illegal c _ => exact h.raiseFault _ _
  | cleared => exact h.clearFault
  | ignored => exact h
  | reply | arg0 | arg1 | arg2 => exact { h with }

theorem params_wf_config : Config.params.wf = true := by
  have hcap : Config.maxCapacityBits ≠ 0 := by
    unfold Config.maxCapacityBits
    split
    · decide
    · assumption
  have hodd : Config.golden.getLsbD 0 = true := by simp [Config.golden]
  have hbase : Config.regBase % 8 = 0 := Nat.mul_mod_right ..
  rw [Params.wf, Bool.and_eq_true, Bool.and_eq_true]
  exact ⟨⟨bne_iff_ne.mpr hcap, hodd⟩, beq_iff_eq.mpr hbase⟩

end Sys2Proof.Machine
end

section
/-! ### The register fields (10_state.md section 1) and the accesses as equations -/

namespace Sys2Proof.Machine

/-- STATUS bit by bit (R26): no part reaches into the bits of the next, since each reads 0 past its own width. -/
theorem getLsbD_statusWord (s : State) (i : Nat) :
    (statusWord s).getLsbD i =
      if i < 8 then decide (i = 0) && s.err
      else if i < 16 then s.errCode.getLsbD (i - 8)
      else if i < 24 then s.errOp.getLsbD (i - 16)
      else s.mode.field.getLsbD (i - 24) := by
  unfold statusWord
  simp only [BitVec.getLsbD_or, BitVec.getLsbD_shiftLeft, BitVec.getLsbD_setWidth, BitVec.getLsbD_ofBool]
  have hcode := @BitVec.getLsbD_of_ge _ s.errCode
  have hop := @BitVec.getLsbD_of_ge _ s.errOp
  have hmode := @BitVec.getLsbD_of_ge _ s.mode.field
  grind

theorem cfgWord_fields (p : Params) :
    (cfgWord p).extractLsb' 0 8 = BitVec.ofNat 8 (blockBits p.blockWidth) ∧
    (cfgWord p).extractLsb' 8 8 = 64 ∧ (cfgWord p).extractLsb' 16 8 = 1 ∧ (cfgWord p).extractLsb' 24 40 = 0 := by
  unfold cfgWord
  cases p.blockWidth <;> decide

theorem blockBits_mem (w : BlockWidth) : blockBits w ∈ [8, 16, 32, 64] := by cases w <;> decide

theorem hostWrite_number (r : Reg) (v : Word) (s : State) : hostWrite r.number v s = writeReg r v s := by
  rw [hostWrite, registerOf_number]

theorem hostRead_number (r : Reg) (s : State) :
    hostRead r.number s = .next { s with replies := s.replies ++ [.word (readReg r s)] } := by
  rw [hostRead, registerOf_number]

theorem registerOf_none {n : Nat} (h : 11 ≤ n) : registerOf n = none := by
  obtain ⟨d, rfl⟩ := Nat.exists_eq_add_of_le' h
  rfl

theorem decode_encode (i : Instr) : decode (encode i) = .ok i := by
  cases i with
  | vset v | vfill v => cases v <;> decide
  | vinit | vget | vgetf | vsetf | binit | bins | blook | bsize => decide

theorem commandWrite_of_decode {c : Word} {i : Instr} (hd : decode c = .ok i) (s : State) :
    commandWrite c s = exec i s := by
  rw [commandWrite, hd]

theorem commandWrite_of_error {c : Word} {e : DecodeError} (hd : decode c = .error e) (s : State) :
    commandWrite c s = .next (illegalCommand c s) := by
  rw [commandWrite, hd]

/-- A read-only register ignores a write (R37). -/
theorem writeReg_readOnly {r : Reg} (hr : r ∈ [.cfg, .maxcap, .result, .result1, .capacity, .hashcount])
    (v : Word) (s : State) : writeReg r v s = .next s := by
  cases r with
  | cfg | maxcap | result | result1 | capacity | hashcount => rfl
  | cmd | status | arg0 | arg1 | arg2 => simp at hr

/-! ### Replies: no access but a read depends on them, and a read only appends -/

/-- The state with other replies. -/
def State.withReplies (s : State) (r : List Reply) : State := { s with replies := r }

/-- No rule reads or writes the replies. -/
theorem ruleOf_withReplies (i : Instr) (s : State) (r : List Reply) :
    ruleOf i (s.withReplies r) = (ruleOf i s).map (·.withReplies r) := by
  cases i with
  | vinit => simp only [ruleOf, vinitRule, apply_ite (Except.map _)]; rfl
  | vget =>
    simp only [ruleOf, vgetRule, show indexFault (s.withReplies r) = indexFault s from rfl]
    cases indexFault s <;> rfl
  | vset v =>
    simp only [ruleOf, vsetRule, show indexFault (s.withReplies r) = indexFault s from rfl]
    cases indexFault s <;> rfl
  | vgetf =>
    simp only [ruleOf, vgetfRule, show fieldFault (s.withReplies r) = fieldFault s from rfl]
    cases fieldFault s <;> rfl
  | vsetf =>
    simp only [ruleOf, vsetfRule, show fieldFault (s.withReplies r) = fieldFault s from rfl]
    cases fieldFault s <;> rfl
  | binit =>
    simp only [ruleOf, binitRule, show sizingFault (s.withReplies r) = sizingFault s from rfl]
    cases sizingFault s with
    | some f => rfl
    | none => simp only [apply_ite (Except.map _)]; rfl
  | bsize =>
    simp only [ruleOf, bsizeRule, show sizingFault (s.withReplies r) = sizingFault s from rfl]
    cases sizingFault s with
    | some f => rfl
    | none => simp only [apply_ite (Except.map _)]; rfl
  | vfill | bins | blook => rfl

theorem exec_withReplies {i : Instr} {s t : State} (h : exec i s = .next t) (r : List Reply) :
    exec i (s.withReplies r) = .next (t.withReplies r) := by
  rcases exec_cases h with ⟨he, rfl⟩ | ⟨he, hl, rfl⟩ | ⟨he, hl, f, hr, rfl⟩ | ⟨he, hl, hr⟩
  · exact exec_of_err he
  · exact exec_of_illegalMode he hl
  · exact exec_of_error he hl (by rw [ruleOf_withReplies, hr]; rfl)
  · exact exec_of_ok he hl (by rw [ruleOf_withReplies, hr]; rfl)

theorem writeReg_withReplies {reg : Reg} {v : Word} {s t : State} (h : writeReg reg v s = .next t)
    (r : List Reply) : writeReg reg v (s.withReplies r) = .next (t.withReplies r) := by
  rcases writeReg_cases h with ⟨rfl, i, hd, hx⟩ | ⟨rfl, ⟨e, hd⟩, rfl⟩ | ⟨rfl, rfl⟩ | ⟨rfl, rfl⟩ | ⟨rfl, rfl⟩ |
    ⟨rfl, rfl⟩ | ⟨hreg, rfl⟩
  · exact (commandWrite_of_decode hd _).trans (exec_withReplies hx r)
  · rw [writeReg, commandWrite_of_error hd, illegalCommand, illegalCommand, apply_ite (State.withReplies · r)]
    rfl
  · rw [writeReg, statusWrite, statusWrite, apply_ite (State.withReplies · r)]
    rfl
  · rfl
  · rfl
  · rfl
  · exact writeReg_readOnly hreg v _

theorem readReg_withReplies (reg : Reg) (s : State) (r : List Reply) :
    readReg reg (s.withReplies r) = readReg reg s := by cases reg <;> rfl

/-- The one reply a read adds does not depend on those before it. -/
theorem perform_read_withReplies {a : HostAccess} {s t : State} (ha : a.isRead = true)
    (h : perform a s = .next t) : ∃ x, t = s.withReplies (s.replies ++ [x]) ∧
      ∀ r, perform a (s.withReplies r) = .next (s.withReplies (r ++ [x])) := by
  cases a with
  | read n =>
    simp only [perform, hostRead] at h ⊢
    cases hn : registerOf n with
    | none => rw [hn] at h; cases h
    | some reg =>
      rw [hn] at h
      injection h with h
      exact ⟨_, h.symm, fun r => by simp only [readReg_withReplies]; rfl⟩
  | busRead address size =>
    simp only [perform, busRead] at h ⊢
    simp only [show ∀ r, (s.withReplies r).params = s.params from fun _ => rfl, readReg_withReplies]
    cases hb : busRegister s.params address size with
    | error e => rw [hb] at h; cases h
    | ok n =>
      simp only [hb] at h ⊢
      cases hn : registerOf n with
      | none => rw [hn] at h; cases h
      | some reg =>
        rw [hn] at h
        injection h with h
        exact ⟨_, h.symm, fun r => rfl⟩
  | write | busWrite | reset => cases ha

/-- An access that writes a register is that register's write. -/
theorem perform_of_registerWrite {a : HostAccess} {s : State} {n : Nat} {v : Word}
    (hw : a.registerWrite s.params = some (n, v)) : perform a s = hostWrite n v s := by
  cases a with
  | write number value => cases hw; rfl
  | busWrite address bytes =>
    simp only [HostAccess.registerWrite] at hw
    cases hb : busRegister s.params address bytes.length with
    | error e => rw [hb] at hw; cases hw
    | ok number =>
      rw [hb] at hw
      cases hw
      simp only [perform, busWrite, hb]
  | read | busRead | reset => cases hw

/-- What an access does, and the replies it adds, do not depend on the replies before it. -/
theorem perform_withReplies {a : HostAccess} {s t : State} (h : perform a s = .next t) :
    ∃ l, t.replies = s.replies ++ l ∧ ∀ r, perform a (s.withReplies r) = .next (t.withReplies (r ++ l)) := by
  rcases perform_cases h with ⟨rfl, rfl⟩ | ⟨ha, _⟩ | ⟨reg, v, hw, _, hr⟩
  · exact ⟨[], by simp, fun r => by rw [List.append_nil]; rfl⟩
  · obtain ⟨x, rfl, hx⟩ := perform_read_withReplies ha h
    exact ⟨[x], rfl, hx⟩
  · have hsame : t = t.withReplies s.replies := by
      have h' := writeReg_withReplies hr s.replies
      rw [show s.withReplies s.replies = s from rfl, hr] at h'
      injection h'
    refine ⟨[], by rw [hsame, List.append_nil]; rfl, fun r => ?_⟩
    rw [perform_of_registerWrite (s := s.withReplies r) hw, hostWrite_number, List.append_nil]
    exact writeReg_withReplies hr r

theorem performAll_cons_next {a : HostAccess} {rest : List HostAccess} {s t : State}
    (h : performAll (a :: rest) s = .next t) :
    ∃ u, perform a s = .next u ∧ performAll rest u = .next t := by
  rw [performAll] at h
  cases hp : perform a s with
  | next u => rw [hp] at h; exact ⟨u, rfl, h⟩
  | fault f => rw [hp] at h; cases h
  | refused r => rw [hp] at h; cases h

theorem performAll_cons {a : HostAccess} {s u : State} (h : perform a s = .next u) (rest : List HostAccess) :
    performAll (a :: rest) s = performAll rest u := by
  rw [performAll, h]

/-- The simulation behind `ReadingAgentIsHarmless`: an agent that begins with fewer replies, and makes its own accesses
without the other's reads, ends in the same state but for the replies. -/
theorem performAll_without_reads {as bs cs : List HostAccess} (hi : Interleaves as bs cs)
    (hb : ∀ b ∈ bs, b.isRead = true) {s t : State} {r : List Reply} (hsub : r.Sublist s.replies)
    (h : performAll cs s = .next t) :
    ∃ u, performAll as (s.withReplies r) = .next u ∧ t = u.withReplies t.replies ∧
      u.replies.Sublist t.replies := by
  induction hi generalizing s r with
  | nil =>
    injection h with h
    subst h
    exact ⟨s.withReplies r, rfl, rfl, hsub⟩
  | left _ ih =>
    obtain ⟨s', hp, hrest⟩ := performAll_cons_next h
    obtain ⟨l, hl, hr⟩ := perform_withReplies hp
    rw [performAll_cons (hr r)]
    exact ih hb (by rw [hl]; exact hsub.append_right l) hrest
  | right _ ih =>
    obtain ⟨s', hp, hrest⟩ := performAll_cons_next h
    obtain ⟨hbhead, hbtail⟩ := List.forall_mem_cons.mp hb
    obtain ⟨x, rfl, _⟩ := perform_read_withReplies hbhead hp
    exact ih (s := s.withReplies (s.replies ++ [x])) hbtail (hsub.trans (List.sublist_append_left ..)) hrest

end Sys2Proof.Machine
end

section
/-! ### The obligations on the state and the registers -/

namespace Sys2Proof.Machine

/-- The fields of STATUS (R26), read off its bits. -/
theorem statusWord_fields (s : State) :
    (statusWord s).getLsbD 0 = s.err ∧ (statusWord s).extractLsb' 1 7 = 0 ∧
    (statusWord s).extractLsb' 8 8 = s.errCode ∧ (statusWord s).extractLsb' 16 8 = s.errOp ∧
    (statusWord s).extractLsb' 24 2 = s.mode.field ∧ (statusWord s).extractLsb' 26 38 = 0 := by
  refine ⟨?_, ?_, ?_, ?_, ?_, ?_⟩
  · rw [getLsbD_statusWord]
    simp
  all_goals
    refine BitVec.eq_of_getLsbD_eq fun i hi => ?_
    rw [BitVec.getLsbD_extractLsb', getLsbD_statusWord]
    grind

/-- An access changes ERRCODE or ERROP only by entering a fault or by clearing one. -/
theorem record_of_perform {a : HostAccess} {s t : State} (h : perform a s = .next t)
    (hne : t.errCode ≠ s.errCode ∨ t.errOp ≠ s.errOp) :
    (s.err = false ∧ t.err = true) ∨ a.clearsFault s.params = true := by
  cases effect_of_perform h with
  | reset ha => exact .inr (ha ▸ clearsFault_reset _)
  | command i t _ hx =>
    rcases exec_record hx with hsame | hfault
    · exact absurd hne (by simp [hsame.errCode, hsame.errOp])
    · exact .inl hfault
  | illegal c he => exact .inl ⟨he, rfl⟩
  | cleared hc => exact .inr hc
  | reply | arg0 | arg1 | arg2 | ignored => simp at hne

/-- An access that may not construct keeps MODE, CAPACITY and HASHCOUNT. -/
theorem structural_of_perform {a : HostAccess} {s t : State} (h : perform a s = .next t)
    (ha : a.mayConstruct s.params = false) :
    t.mode = s.mode ∧ t.capacity = s.capacity ∧ t.hashCount = s.hashCount := by
  cases effect_of_perform h with
  | reset hr => exact absurd ha (by rw [hr, mayConstruct_reset]; decide)
  | command i t hc hx =>
    have hi : ¬ (i = .vinit ∨ i = .binit) := fun hi => by simp [mayConstruct_of_commandOf hc hi] at ha
    exact (exec_frame hx).structural (fun h => hi (.inl h)) (fun h => hi (.inr h))
  | reply | illegal | cleared | arg0 | arg1 | arg2 | ignored => exact ⟨rfl, rfl, rfl⟩

/-- An access other than reset changes an operand register only by the host's write to it (R28). -/
theorem operands_of_perform {a : HostAccess} {s t : State} (h : perform a s = .next t) (ha : a ≠ .reset) :
    (t.arg0 ≠ s.arg0 → ∃ v, a.registerWrite s.params = some (4, v) ∧ t.arg0 = v) ∧
    (t.arg1 ≠ s.arg1 → ∃ v, a.registerWrite s.params = some (5, v) ∧ t.arg1 = v) ∧
    (t.arg2 ≠ s.arg2 → ∃ v, a.registerWrite s.params = some (6, v) ∧ t.arg2 = v) := by
  cases effect_of_perform h with
  | reset hr => exact absurd hr ha
  | command i t _ hx =>
    have hf := exec_frame hx
    exact ⟨(absurd hf.arg0 ·), (absurd hf.arg1 ·), (absurd hf.arg2 ·)⟩
  | arg0 v hw => exact ⟨fun _ => ⟨v, hw, rfl⟩, (absurd rfl ·), (absurd rfl ·)⟩
  | arg1 v hw => exact ⟨(absurd rfl ·), fun _ => ⟨v, hw, rfl⟩, (absurd rfl ·)⟩
  | arg2 v hw => exact ⟨(absurd rfl ·), (absurd rfl ·), fun _ => ⟨v, hw, rfl⟩⟩
  | reply | illegal | cleared | ignored => exact ⟨(absurd rfl ·), (absurd rfl ·), (absurd rfl ·)⟩

/-- An access other than reset changes a result register only as one of the commands of R29. -/
theorem results_of_perform {a : HostAccess} {s t : State} (h : perform a s = .next t) (ha : a ≠ .reset) :
    (t.result ≠ s.result → a.commandOf s.params ∈ [some .vget, some .vgetf, some .blook, some .bsize]) ∧
    (t.result1 ≠ s.result1 → a.commandOf s.params = some .bsize) := by
  cases effect_of_perform h with
  | reset hr => exact absurd hr ha
  | command i t hc hx =>
    have hf := exec_frame hx
    rw [hc]
    exact ⟨fun hne => by simpa using hf.result hne, fun hne => congrArg some (hf.result1 hne)⟩
  | reply | illegal | cleared | arg0 | arg1 | arg2 | ignored => exact ⟨(absurd rfl ·), (absurd rfl ·)⟩

theorem vinit_counts {s t : State} (hs : s.err = false) (hx : exec .vinit s = .next t) (ht : t.err = false) :
    t.capacity = s.arg0 ∧ t.hashCount = 0 := by
  obtain ⟨_, rfl⟩ := vinitRule_ok (ruleOf_ok_of_exec hx hs ht)
  exact ⟨rfl, rfl⟩

theorem binit_counts {s t : State} (hs : s.err = false) (hx : exec .binit s = .next t) (ht : t.err = false) :
    t.capacity.toNat = filterSize s ∧ t.hashCount.toNat = filterHashCount s := by
  obtain ⟨hn, _, hfit, rfl⟩ := binitRule_ok (ruleOf_ok_of_exec hx hs ht)
  have hk : filterHashCount s < 2 ^ 64 :=
    sizedHashCount_lt _ (hfit.trans_lt s.params.maxCapacityBits.isLt) hn
  exact ⟨toNat_filterSize hfit, Nat.mod_eq_of_lt hk⟩

/-- Settles O50: one case per effect of an access; a command keeps the invariant by its rule. -/
theorem invariantKept : Obligations.InvariantKept := by
  unfold Obligations.InvariantKept
  intro s t h hs
  rcases step_cases hs with rfl | ⟨a, rest, _, hp⟩
  · exact h
  · exact perform_keeps_inv (s := { s with pending := rest }) { h with } hp

/-- Settles O53, by the simulation `performAll_without_reads` from the same state. -/
theorem readingAgentIsHarmless : Obligations.ReadingAgentIsHarmless := by
  unfold Obligations.ReadingAgentIsHarmless
  intro as bs cs s t hi hb h
  exact performAll_without_reads hi hb (List.Sublist.refl s.replies) h

/-- Settles O3. -/
theorem configurationRegistersConstant : Obligations.ConfigurationRegistersConstant := by
  unfold Obligations.ConfigurationRegistersConstant
  intro s
  obtain ⟨hB, hW, hversion, hzero⟩ := cfgWord_fields s.params
  refine ⟨hB, blockBits_mem _, hW, hversion, hzero, rfl, fun v => ⟨rfl, rfl⟩, fun t h => ?_⟩
  exact ⟨congrArg cfgWord (step_params h), congrArg Params.maxCapacityBits (step_params h)⟩

/-- Settles O4. -/
theorem statusFieldsAndWriters : Obligations.StatusFieldsAndWriters := by
  unfold Obligations.StatusFieldsAndWriters
  refine ⟨statusWord_fields, fun a s t h => ⟨record_of_perform h, fun hne => ?_⟩⟩
  by_contra ha
  exact hne (structural_of_perform h (Bool.eq_false_iff.mpr ha)).1

/-- Settles O6. -/
theorem operandRegisters : Obligations.OperandRegisters := by
  unfold Obligations.OperandRegisters
  refine ⟨fun v s => ⟨rfl, rfl, rfl, rfl, rfl, rfl⟩, fun i s t h => ?_, fun a s t => operands_of_perform⟩
  exact ⟨(exec_frame h).arg0, (exec_frame h).arg1, (exec_frame h).arg2⟩

/-- Settles O7. -/
theorem resultRegisters : Obligations.ResultRegisters := by
  unfold Obligations.ResultRegisters
  refine ⟨fun i s t h => ?_, fun a s t => results_of_perform, fun v s => ⟨rfl, rfl⟩⟩
  exact ⟨(exec_frame h).result, (exec_frame h).result1, exec_results_of_err h⟩

/-- Settles O8: BINIT's count is whole because `k` fits the register (`sizedHashCount_lt`). -/
theorem capacityAndHashCount : Obligations.CapacityAndHashCount := by
  unfold Obligations.CapacityAndHashCount
  refine ⟨fun s t => vinit_counts, fun s t hs hx ht => ?_, fun a s t h ha => (structural_of_perform h ha).2,
    fun s t h => ?_, fun v s => ⟨rfl, rfl⟩⟩
  · obtain ⟨hcap, hhash⟩ := binit_counts hs hx ht
    exact ⟨hcap, by rw [hhash, hcap]; rfl⟩
  · injection h with h
    subst h
    exact ⟨rfl, rfl⟩

theorem statusWord_resetWith (p : Params) : statusWord (State.resetWith p) = 0 := by
  simp [statusWord, State.resetWith, Mode.field]

/-- Settles O1. -/
theorem resetValues : Obligations.ResetValues := by
  unfold Obligations.ResetValues
  refine ⟨rfl, fun p => ?_⟩
  refine ⟨rfl, rfl, rfl, statusWord_resetWith p, rfl, rfl, rfl, rfl, rfl, rfl, rfl, rfl, rfl, rfl, rfl, fun i => rfl⟩

/-- Settles O5. -/
theorem statusWriteClears : Obligations.StatusWriteClears := by
  unfold Obligations.StatusWriteClears
  exact fun v s => ⟨fun hv => congrArg _ (statusWrite_of_set hv s), fun hv => congrArg _ (statusWrite_of_clear hv s)⟩

/-- Settles O9. -/
theorem readsAndIgnoredWrites : Obligations.ReadsAndIgnoredWrites := by
  unfold Obligations.ReadsAndIgnoredWrites
  refine ⟨fun s => ⟨rfl, rfl, rfl, rfl, rfl, rfl, rfl, rfl, rfl, rfl, rfl, rfl, rfl⟩, fun r v s => ?_⟩
  exact ⟨hostRead_number r s, fun hr => (hostWrite_number r v s).trans (writeReg_readOnly hr v s)⟩

/-- Settles O10. -/
theorem unassignedRegistersStuck : Obligations.UnassignedRegistersStuck := by
  unfold Obligations.UnassignedRegistersStuck
  intro n v s hn
  simp [perform, hostRead, hostWrite, registerOf_none hn]

/-- Settles O49. -/
theorem invariantAtReset : Obligations.InvariantAtReset := by
  unfold Obligations.InvariantAtReset
  exact ⟨fun p hp => inv_resetWith hp, inv_resetWith params_wf_config⟩

/-- Settles O51. -/
theorem stepRunsTheDecodedCommand : Obligations.StepRunsTheDecodedCommand := by
  unfold Obligations.StepRunsTheDecodedCommand
  refine ⟨fun s c i rest hd hp => ?_, fun s a rest => step_of_cons, fun s => step_of_nil, fun s i => ?_⟩
  · exact (step_of_cons hp).trans (commandWrite_of_decode hd _)
  · have hword : BitVec.ofNat 64 ((encode i).toNat % 2 ^ 64) = encode i := by
      rw [Nat.mod_eq_of_lt (encode i).isLt, BitVec.ofNat_toNat, BitVec.setWidth_eq]
    rw [State.withFetchWord, hword, step_of_cons rfl]
    exact commandWrite_of_decode (decode_encode i) s

end Sys2Proof.Machine
end

section
/-! ### The byte-addressed bus (20_memory.md R52) and the commands it carries (R54) -/

namespace Sys2Proof.Machine

/-- A command has a next state: it is dropped, faults, or runs its rule (R180). -/
theorem exists_next_exec (i : Instr) (s : State) : ∃ t, exec i s = .next t := by
  cases he : s.err with
  | true => exact ⟨_, exec_of_err he⟩
  | false =>
    cases hl : legalIn i s.mode with
    | false => exact ⟨_, exec_of_illegalMode he hl⟩
    | true =>
      cases hr : ruleOf i s with
      | ok t => exact ⟨t, exec_of_ok he hl hr⟩
      | error f => exact ⟨_, exec_of_error he hl hr⟩

theorem exists_next_commandWrite (c : Word) (s : State) : ∃ t, commandWrite c s = .next t := by
  cases hd : decode c with
  | ok i => rw [commandWrite_of_decode hd]; exact exists_next_exec i s
  | error e => exact ⟨_, commandWrite_of_error hd s⟩

@[simp] theorem length_bytesOfWord (w : Word) (n : Nat) : (bytesOfWord w n).length = n := by
  induction n generalizing w with
  | zero => rfl
  | succ n ih => simp [bytesOfWord, ih]

/-- Byte `k` of a word, the least significant first. -/
theorem getElem?_bytesOfWord (w : Word) {n k : Nat} (hk : k < n) :
    (bytesOfWord w n)[k]? = some (w.extractLsb' (8 * k) 8) := by
  induction n generalizing w k with
  | zero => omega
  | succ n ih =>
    cases k with
    | zero => simp [bytesOfWord, BitVec.setWidth_eq_extractLsb']
    | succ k =>
      rw [bytesOfWord, List.getElem?_cons_succ, ih _ (by omega)]
      congr 1
      ext i hi
      simp only [BitVec.getElem_extractLsb', BitVec.getLsbD_ushiftRight]
      congr 1
      omega

/-- The word of the `n` low bytes of `w` has the `8 * n` low bits of `w`. -/
theorem getLsbD_wordOfBytes_bytesOfWord (w : Word) (n i : Nat) :
    (wordOfBytes (bytesOfWord w n)).getLsbD i = (decide (i < 8 * n) && w.getLsbD i) := by
  induction n generalizing w i with
  | zero => simp [bytesOfWord, wordOfBytes]
  | succ n ih =>
    rw [bytesOfWord, wordOfBytes, BitVec.getLsbD_or, BitVec.getLsbD_shiftLeft, ih, BitVec.getLsbD_ushiftRight,
      BitVec.getLsbD_setWidth, BitVec.getLsbD_setWidth]
    by_cases hi : i < 8
    · simp [hi, show i < 64 by omega, show i < 8 * (n + 1) by omega]
    · have hrest : i - 8 < 8 * n ↔ i < 8 * (n + 1) := by omega
      have hpast := @BitVec.getLsbD_of_ge _ w i
      rw [Nat.add_sub_cancel' (Nat.le_of_not_lt hi)]
      grind

theorem wordOfBytes_bytesOfWord (w : Word) : wordOfBytes (bytesOfWord w 8) = w := by
  ext i hi
  rw [← BitVec.getLsbD_eq_getElem, getLsbD_wordOfBytes_bytesOfWord]
  simp [hi]

/-- Either byte order is its own inverse. -/
@[simp] theorem inBusOrder_inBusOrder (o : ByteOrder) (bytes : List Byte) :
    inBusOrder o (inBusOrder o bytes) = bytes := by
  cases o with
  | little => rfl
  | big => exact List.reverse_reverse bytes

@[simp] theorem length_inBusOrder (o : ByteOrder) (bytes : List Byte) :
    (inBusOrder o bytes).length = bytes.length := by
  cases o with
  | little => rfl
  | big => exact List.length_reverse

theorem busRegister_number {p : Params} (hp : p.regBaseAligned = true) (n : Nat) :
    busRegister p (p.regBase + 8 * n) 8 = .ok n := by
  have hbase : p.regBase % 8 = 0 := by simpa [Params.regBaseAligned] using hp
  rw [busRegister, if_neg (by omega), if_neg (by omega), if_neg (by omega)]
  congr 1
  omega

theorem busRegister_narrowOrMisaligned {address size : Nat} (h : size ≠ 8 ∨ address % 8 ≠ 0) (p : Params) :
    busRegister p address size = .error (.narrowOrMisaligned address size) := if_pos h

theorem busWrite_register {s : State} (hp : s.params.regBaseAligned = true) (r : Reg) (w : Word) :
    busWrite (s.params.regBase + 8 * r.number) (inBusOrder s.params.hostByteOrder (bytesOfWord w 8)) s =
      writeReg r w s := by
  simp only [busWrite, length_inBusOrder, length_bytesOfWord, busRegister_number hp, inBusOrder_inBusOrder,
    wordOfBytes_bytesOfWord, hostWrite_number]

theorem busRead_register {s : State} (hp : s.params.regBaseAligned = true) (r : Reg) :
    busRead (s.params.regBase + 8 * r.number) 8 s =
      .next { s with
        replies := s.replies ++ [.bytes (inBusOrder s.params.hostByteOrder (bytesOfWord (readReg r s) 8))] } := by
  simp only [busRead, busRegister_number hp, registerOf_number]

/-- Settles O11: a bus write puts back together the word whose bytes the host sent (`wordOfBytes_bytesOfWord`), and the
register number is what an aligned REG_BASE leaves of the address (`busRegister_number`). -/
theorem busRegisterFile : Obligations.BusRegisterFile := by
  unfold Obligations.BusRegisterFile
  refine ⟨fun w k => getElem?_bytesOfWord w, fun s r w hp => ?_, fun s address size bytes h => ⟨?_, fun hlen => ?_⟩⟩
  · exact ⟨busWrite_register hp r w, busRead_register hp r⟩
  · rw [perform, busRead, busRegister_narrowOrMisaligned h]
  · subst hlen
    rw [perform, busWrite, busRegister_narrowOrMisaligned h]

/-- Settles O21: a dropped command, a fault and an illegal word are next states too. -/
theorem commandsComplete : Obligations.CommandsComplete := by
  unfold Obligations.CommandsComplete
  exact exists_next_commandWrite

end Sys2Proof.Machine
end

section
/-! ### The command word (30_encoding.md R70 to R75): its fields, what the decoder reads and rejects, the opcode table

Everything is read off one fact: `decode` answers a command exactly on that command's word (`decode_eq_ok_iff`). -/

namespace Sys2Proof

/-- The fields RSV, V and OP are the whole word (R70). -/
theorem word_eq_of_fields {c d : Word} (hrsv : rsvField c = rsvField d) (hv : vField c = vField d)
    (hop : opField c = opField d) : c = d := by
  refine BitVec.eq_of_getLsbD_eq fun i hi => ?_
  rcases Nat.lt_trichotomy i 8 with hlow | rfl | hhigh
  · simpa [opField, hlow] using congrArg (BitVec.getLsbD · i) hop
  · exact hv
  · simpa [rsvField, show i - 9 < 55 by omega, show 9 + (i - 9) = i by omega]
      using congrArg (BitVec.getLsbD · (i - 9)) hrsv

/-- The word of a command is legal and carries the command's OP and V. -/
theorem legalWord (i : Instr) : Laws.LegalWord.Statement i := by
  cases i with
  | vinit => exact Laws.LegalWord.vinit
  | vget => exact Laws.LegalWord.vget
  | vset v => exact Laws.LegalWord.vset v
  | vgetf => exact Laws.LegalWord.vgetf
  | vsetf => exact Laws.LegalWord.vsetf
  | vfill v => exact Laws.LegalWord.vfill v
  | binit => exact Laws.LegalWord.binit
  | bins => exact Laws.LegalWord.bins
  | blook => exact Laws.LegalWord.blook
  | bsize => exact Laws.LegalWord.bsize

theorem rsvField_encode (i : Instr) : rsvField (encode i) = 0 := by
  obtain ⟨hlegal, -, -⟩ := legalWord i
  simp only [commandWordWf, Bool.and_eq_true, reservedBitsZero, beq_iff_eq] at hlegal
  exact hlegal.1.1

/-- A format-N command is decoded only with `V = 0` (R71). -/
theorem formatN_eq_ok {v : Bool} {i j : Instr} (h : formatN v i = .ok j) : v = false ∧ j = i := by
  cases v with
  | false => injection h with h; exact ⟨rfl, h.symm⟩
  | true => cases h

/-- The opcode map answers a command only on that command's own OP and V (R74). -/
theorem fields_of_decodeFields {op : BitVec 8} {v : Bool} {i : Instr} (h : decodeFields op v = .ok i) :
    op = i.opcode ∧ v = i.vBit := by
  unfold decodeFields at h
  split at h
  case h_3 hop | h_6 hop =>
    injection h with h
    subst h
    exact ⟨BitVec.eq_of_toNat_eq hop, rfl⟩
  case h_11 => cases h
  all_goals
    next hop =>
    obtain ⟨rfl, rfl⟩ := formatN_eq_ok h
    exact ⟨BitVec.eq_of_toNat_eq hop, rfl⟩

/-- What the decoder reads from a word is the command the word encodes. -/
theorem eq_encode_of_decode {c : Word} {i : Instr} (h : decode c = .ok i) : c = encode i := by
  obtain ⟨-, hop, hv⟩ := legalWord i
  unfold decode at h
  split at h
  · next hrsv =>
    obtain ⟨hop', hv'⟩ := fields_of_decodeFields h
    exact word_eq_of_fields (hrsv.trans (rsvField_encode i).symm) (hv'.trans hv.symm) (hop'.trans hop.symm)
  · cases h

theorem decode_eq_ok_iff {c : Word} {i : Instr} : decode c = .ok i ↔ c = encode i :=
  ⟨eq_encode_of_decode, fun h => h ▸ Machine.decode_encode i⟩

theorem encode_injective {i j : Instr} (h : encode i = encode j) : i = j := by
  have hd : decode (encode i) = .ok j := decode_eq_ok_iff.mpr h
  rw [Machine.decode_encode] at hd
  injection hd

/-- The illegal words are those no command encodes to. -/
theorem decode_eq_error_iff {c : Word} : (∃ e, decode c = .error e) ↔ ¬ ∃ i, c = encode i := by
  simp only [← decode_eq_ok_iff]
  cases decode c <;> simp

/-! ### The three conditions of R73 -/

theorem formatN_eq_error_iff {v : Bool} {i : Instr} : (∃ e, formatN v i = .error e) ↔ v = true := by
  cases v <;> simp [formatN]

/-- The opcode map rejects an OP that is none of the ten, and `V = 1` with an OP of format N. -/
theorem decodeFields_eq_error_iff (op : BitVec 8) (v : Bool) :
    (∃ e, decodeFields op v = .error e) ↔
      op ∉ ([0x01, 0x02, 0x03, 0x04, 0x05, 0x06, 0x11, 0x12, 0x13, 0x14] : List (BitVec 8)) ∨
      (op ∈ ([0x01, 0x02, 0x04, 0x05, 0x11, 0x12, 0x13, 0x14] : List (BitVec 8)) ∧ v = true) := by
  unfold decodeFields
  split
  case h_11 h01 h02 h03 h04 h05 h06 h11 h12 h13 h14 =>
    refine iff_of_true ⟨_, rfl⟩ (.inl ?_)
    simpa [← BitVec.toNat_inj] using ⟨h01, h02, h03, h04, h05, h06, h11, h12, h13, h14⟩
  all_goals simp [← BitVec.toNat_inj, formatN_eq_error_iff, *]

/-- A word is illegal by its reserved bits or by the opcode map. -/
theorem decode_eq_error_iff_fields (c : Word) :
    (∃ e, decode c = .error e) ↔ rsvField c ≠ 0 ∨ ∃ e, decodeFields (opField c) (vField c) = .error e := by
  unfold decode
  split
  · next h => simp [h]
  · next h => exact iff_of_true ⟨_, rfl⟩ (.inl h)

/-! ### The opcode table (R74) -/

/-- A word is its bits outside V, and V. -/
theorem word_eq_masked_or_immediate (c : Word) :
    c = (c &&& 0xFFFFFFFFFFFFFEFF) ||| (if vField c then 0x100 else 0) := by
  have hv : (if vField c then 0x100 else 0) = c &&& 0x100 := (BitVec.and_twoPow c 8).symm
  rw [hv, ← BitVec.and_or_distrib_left]
  exact BitVec.and_allOnes.symm

/-- A row of the table covers only words of a command. -/
theorem exists_encode_of_covers {r : OpcodeRow} {c : Word} (hr : r ∈ opcodeTable) (h : r.covers c = true) :
    ∃ i, c = encode i := by
  have hsplit := word_eq_masked_or_immediate c
  have hall : c &&& 0xFFFFFFFFFFFFFFFF = c := BitVec.and_allOnes
  simp only [opcodeTable, List.cons_append, List.nil_append, List.mem_cons, List.not_mem_nil, or_false] at hr
  rcases hr with rfl | rfl | rfl | rfl | rfl | rfl | rfl | rfl | rfl | rfl <;>
    simp only [OpcodeRow.covers, beq_iff_eq, hall] at h
  · exact ⟨.vinit, h⟩
  · exact ⟨.vget, h⟩
  · exact ⟨.vset (vField c), by rw [h] at hsplit; exact hsplit⟩
  · exact ⟨.vgetf, h⟩
  · exact ⟨.vsetf, h⟩
  · exact ⟨.vfill (vField c), by rw [h] at hsplit; exact hsplit⟩
  · exact ⟨.binit, h⟩
  · exact ⟨.bins, h⟩
  · exact ⟨.blook, h⟩
  · exact ⟨.bsize, h⟩

/-- Of the rows of the table only the command's own covers its word. -/
theorem rows_covering_encode (i : Instr) :
    (opcodeTable.filter fun r => r.covers (encode i)).map OpcodeRow.mnemonic = [i.mnemonic] := by
  cases i with
  | vset v | vfill v => cases v <;> rfl
  | vinit | vget | vgetf | vsetf | binit | bins | blook | bsize => rfl

end Sys2Proof
end

section
/-! ### The expansions of the pseudo-instructions end in the write of a command's word (R82) -/

namespace Sys2Proof.Machine

/-- The CMD write that ends an expansion performs its command. -/
theorem performAll_command (i : Instr) (s : State) : performAll [wr .cmd (encode i)] s = exec i s := by
  obtain ⟨t, ht⟩ := exists_next_exec i s
  have hw : perform (wr .cmd (encode i)) s = .next t := (commandWrite_of_decode (decode_encode i) s).trans ht
  rw [performAll_cons hw, ht]
  rfl

/-- R82 writes the immediate as `b << 8`, the encoder as `0x100` where it is 1. -/
theorem immediate_shiftLeft (v : Bool) :
    ((BitVec.ofBool v).setWidth 64 <<< 8 : Word) = if v then 0x100 else 0 := by
  cases v <;> rfl

theorem vsetWord_eq (v : Bool) : (0x03 ||| (BitVec.ofBool v).setWidth 64 <<< 8 : Word) = encode (.vset v) := by
  rw [immediate_shiftLeft]
  rfl

theorem vfillWord_eq (v : Bool) : (0x06 ||| (BitVec.ofBool v).setWidth 64 <<< 8 : Word) = encode (.vfill v) := by
  rw [immediate_shiftLeft]
  rfl

end Sys2Proof.Machine
end

section
/-! ### The binary64 error rate (R77): its sign, its magnitude, and when it lies in (0, 1) -/

namespace Sys2Proof.Machine

theorem binary64Value_of_finite {w : Word} (h : exponentField w ≠ 2047) :
    binary64Value w = some ((if w.getLsbD 63 then -1 else 1) * binary64Magnitude w) := by
  rw [binary64Value, if_neg h]
  split <;> simp

theorem binary64Magnitude_nonneg (w : Word) : 0 ≤ binary64Magnitude w := by
  unfold binary64Magnitude
  positivity

theorem binary64Magnitude_of_subnormal {w : Word} (h : exponentField w = 0) :
    binary64Magnitude w = (fractionField w : ℚ) / 2 ^ 1074 := by
  rw [binary64Magnitude, significand, if_pos h, h, show 1075 = 1074 + 1 from rfl, pow_succ]
  simp only [Nat.cast_mul, Nat.cast_pow, Nat.cast_ofNat]
  rw [max_eq_right zero_le_one, pow_one, mul_div_mul_right _ _ two_ne_zero]

theorem binary64Magnitude_of_normal {w : Word} (h : 1 ≤ exponentField w) :
    binary64Magnitude w = (1 + (fractionField w : ℚ) / 2 ^ 52) * 2 ^ ((exponentField w : ℤ) - 1023) := by
  rw [binary64Magnitude, significand, if_neg (by omega), max_eq_left h, show 1075 = 52 + 1023 from rfl, pow_add,
    zpow_sub₀ two_ne_zero, zpow_natCast, zpow_ofNat]
  simp only [Nat.cast_mul, Nat.cast_add, Nat.cast_pow, Nat.cast_ofNat]
  rw [one_add_div (by positivity), div_mul_div_comm]

/-- A legal error rate is positive and below 1: it is `(1 - u) / 2^shift` with `0 < u <= 1/2`. -/
theorem binary64Magnitude_mem_of_legal {pb : Word} (h : errorRateLegal pb = true) :
    0 < binary64Magnitude pb ∧ binary64Magnitude pb < 1 := by
  have hu0 := errorRateU_pos pb
  have hu1 := errorRateU_le h
  rw [binary64Magnitude_eq h]
  refine ⟨div_pos (by linarith) (by positivity), ?_⟩
  rw [div_lt_one (by positivity)]
  linarith [one_le_pow₀ (n := errorRateShift pb) (one_le_two (α := ℚ))]

/-- From the exponent 1023 on a pattern denotes a magnitude of 1 or more. -/
theorem one_le_binary64Magnitude {w : Word} (h : 1023 ≤ exponentField w) : 1 ≤ binary64Magnitude w := by
  rw [binary64Magnitude_of_normal (by omega)]
  refine one_le_mul_of_one_le_of_one_le (le_add_of_nonneg_right (by positivity)) ?_
  exact one_le_zpow₀ one_le_two (by omega)

/-- The sign bit. -/
theorem getLsbD_sign (w : Word) : w.getLsbD 63 = decide (2 ^ 63 ≤ w.toNat) := by
  rw [← BitVec.msb_eq_getLsbD_last, BitVec.msb_eq_decide]

/-- The legal patterns are those of the reals strictly between 0 and 1. -/
theorem errorRateLegal_iff_value (pb : Word) :
    errorRateLegal pb = true ↔ ∃ p, binary64Value pb = some p ∧ 0 < p ∧ p < 1 := by
  constructor
  · intro h
    have hexp := exponentField_le h
    have hle := ((errorRateLegal_iff pb).mp h).2
    have hsign : pb.getLsbD 63 = false := by
      rw [getLsbD_sign, decide_eq_false_iff_not]
      omega
    rw [binary64Value_of_finite (by omega), hsign]
    exact ⟨_, rfl, by simpa using binary64Magnitude_mem_of_legal h⟩
  · rintro ⟨p, hp, hp0, hp1⟩
    have hfinite : exponentField pb ≠ 2047 := fun h => by simp [binary64Value, h] at hp
    rw [binary64Value_of_finite hfinite, Option.some.injEq] at hp
    have hsign : ¬ pb.getLsbD 63 = true := fun h => by
      have := binary64Magnitude_nonneg pb
      rw [if_pos h] at hp
      linarith
    rw [if_neg hsign, one_mul] at hp
    subst hp
    have hexp : exponentField pb < 1023 := not_le.mp fun h => (one_le_binary64Magnitude h).not_gt hp1
    have hne : pb ≠ 0 := by
      rintro rfl
      refine hp0.ne' ?_
      rw [binary64Magnitude_of_subnormal rfl, show fractionField 0 = 0 from rfl, Nat.cast_zero, zero_div]
    have hpos : pb.toNat ≠ 0 := fun h => hne (BitVec.eq_of_toNat_eq h)
    rw [getLsbD_sign, decide_eq_true_eq] at hsign
    rw [exponentField_eq] at hexp
    rw [errorRateLegal_iff]
    omega

end Sys2Proof.Machine
end

section
/-! ### The obligations on the encoding -/

namespace Sys2Proof.Machine

/-- Settles O13: the decoder accepts a word only on the OP and V of its command, and the three fields are the whole
word. -/
theorem decodeIffEncode : Obligations.DecodeIffEncode := by
  unfold Obligations.DecodeIffEncode
  exact fun c i _ => decode_eq_ok_iff

/-- Settles O14: the conditions are read off the opcode map; the rest follows from `decode_eq_ok_iff`. -/
theorem illegalWords : Obligations.IllegalWords := by
  unfold Obligations.IllegalWords
  refine fun c => ⟨?_, decode_eq_error_iff, fun i j hi hj => encode_injective (hi.symm.trans hj), fun e s hd he => ?_⟩
  · rw [decode_eq_error_iff_fields, decodeFields_eq_error_iff]
    rfl
  · calc hostWrite 2 c s = .next (illegalCommand c s) := commandWrite_of_error hd s
      _ = .next (raiseFault .illegal (opField c) s) := by rw [illegalCommand_of_no_err he]

/-- Settles O15: a legal word is some command's, whose row alone covers it; a word some row covers is legal. -/
theorem oneTableRowOrIllegal : Obligations.OneTableRowOrIllegal := by
  unfold Obligations.OneTableRowOrIllegal
  intro c
  cases hd : decode c with
  | ok i =>
    obtain rfl := eq_encode_of_decode hd
    exact rows_covering_encode i
  | error e =>
    have hnone : ∀ r ∈ opcodeTable, ¬ r.covers c = true := fun r hr hc =>
      decode_eq_error_iff.mp ⟨e, hd⟩ (exists_encode_of_covers hr hc)
    rw [List.filter_eq_nil_iff.mpr hnone]
    rfl

/-- Settles O34: a value is its sign times its magnitude, and the legal patterns are the magnitudes below 1. -/
theorem errorRateOperand : Obligations.ErrorRateOperand := by
  unfold Obligations.ErrorRateOperand
  intro pb
  refine ⟨?_, fun h => if_pos h, fun h => ?_, fun h1 h2 => ?_⟩
  · rw [← errorRateLegal_iff, errorRateLegal_iff_value]
  · have he : exponentField pb = 0 := h
    rw [binary64Value_of_finite (by omega), binary64Magnitude_of_subnormal he, mul_div_assoc]
    rfl
  · have hfinite : exponentField pb ≠ 2047 := Nat.ne_of_lt (Nat.lt_succ_of_le h2)
    rw [binary64Value_of_finite hfinite, binary64Magnitude_of_normal h1, mul_assoc]
    rfl

/-- Settles O12: the legal words are encodings, the illegal ones meet one condition of R73 each. -/
theorem decodeWrittenWords : Obligations.DecodeWrittenWords := by
  unfold Obligations.DecodeWrittenWords
  exact ⟨decode_encode .vinit, decode_encode .vget, decode_encode (.vset false), decode_encode (.vset true),
    decode_encode .vgetf, decode_encode .vsetf, decode_encode (.vfill true), decode_encode .binit,
    decode_encode .bins, decode_encode .blook, decode_encode .bsize, rfl, rfl, rfl⟩

/-- Settles O52: the ARG writes set their registers, and what is left is the write of the command's own word. -/
theorem pseudoInstructions : Obligations.PseudoInstructions := by
  unfold Obligations.PseudoInstructions
  intro s a b c v
  refine ⟨performAll_command .vinit _, performAll_command .vget _, ?_, performAll_command .vgetf _,
    performAll_command .vsetf _, ?_, performAll_command .binit _, performAll_command .bins _,
    performAll_command .blook _, performAll_command .bsize _, rfl⟩
  · rw [Pseudo.expand, vsetWord_eq]
    exact performAll_command (.vset v) _
  · rw [Pseudo.expand, vfillWord_eq]
    exact performAll_command (.vfill v) s

end Sys2Proof.Machine
end

section
/-! ### Every rule is its checks, then its effect

`ruleFault` names the fault a rule raises and `ruleEffect` what it does when it raises none, so that a claim about a
command needs its checks and its effect and not the rule's own branches. -/

namespace Sys2Proof.Machine

/-- The fault the command's own rule raises (R100 to R106, R141, R144, R149); none where it completes. -/
def ruleFault : Instr → State → Option FaultCode
  | .vinit, s => if s.params.maxCapacityBits.toNat < s.arg0.toNat then some .size else none
  | .vget, s | .vset _, s => indexFault s
  | .vgetf, s | .vsetf, s => fieldFault s
  | .vfill _, _ | .bins, _ | .blook, _ => none
  | .binit, s =>
    (sizingFault s).or (if s.params.maxCapacityBits.toNat < filterSize s then some .size else none)
  | .bsize, s => (sizingFault s).or (if 2 ^ 64 - 1 < filterSize s then some .size else none)

/-- What the command's rule does to the state where it raises no fault. -/
def ruleEffect : Instr → State → State
  | .vinit, s => { s with
      store := s.store.zeroBelow (bytesInUse s.params s.arg0.toNat)
      capacity := s.arg0
      hashCount := 0
      mode := .vector }
  | .vget, s => { s with result := (memRead s.store s.arg0.toNat 1).setWidth 64 }
  | .vset v, s => { s with store := memWrite s.store s.arg0.toNat 1 ((BitVec.ofBool v).setWidth 64) }
  | .vgetf, s => { s with result := (memRead s.store s.arg0.toNat (fieldLength s)).setWidth 64 }
  | .vsetf, s => { s with store := memWrite s.store s.arg0.toNat (fieldLength s) (fieldValue s) }
  | .vfill v, s => { s with store := s.store.setAllBelow (bytesInUse s.params s.capacity.toNat) v }
  | .binit, s => { s with
      store := s.store.zeroBelow (bytesInUse s.params (filterSize s))
      capacity := BitVec.ofNat 64 (filterSize s)
      hashCount := BitVec.ofNat 64 (filterHashCount s)
      mode := .bloom }
  | .bins, s => { s with store := s.store.setPositions (hashPosition s) s.hashCount.toNat }
  | .blook, s => { s with
      result := (BitVec.ofBool (s.store.allSet (hashPosition s) s.hashCount.toNat)).setWidth 64 }
  | .bsize, s => { s with
      result := BitVec.ofNat 64 (filterSize s)
      result1 := BitVec.ofNat 64 (filterHashCount s) }

/-- A rule is its checks, then its effect. -/
theorem ruleOf_eq (i : Instr) (s : State) :
    ruleOf i s = (ruleFault i s).elim (.ok (ruleEffect i s)) .error := by
  cases i with
  | vinit => rw [ruleOf, vinitRule, ruleFault]; split <;> rfl
  | vget => rw [ruleOf, vgetRule, ruleFault]; cases indexFault s <;> rfl
  | vset v => rw [ruleOf, vsetRule, ruleFault]; cases indexFault s <;> rfl
  | vgetf => rw [ruleOf, vgetfRule, ruleFault]; cases fieldFault s <;> rfl
  | vsetf => rw [ruleOf, vsetfRule, ruleFault]; cases fieldFault s <;> rfl
  | binit =>
    rw [ruleOf, binitRule, ruleFault]
    cases sizingFault s with
    | some f => rfl
    | none => dsimp only [Option.none_or]; split <;> rfl
  | bsize =>
    rw [ruleOf, bsizeRule, ruleFault]
    cases sizingFault s with
    | some f => rfl
    | none => dsimp only [Option.none_or]; split <;> rfl
  | vfill | bins | blook => rfl

/-- A command MODE allows, whose checks find a fault, enters it (R182). -/
theorem exec_of_fault (i : Instr) {s : State} {f : FaultCode} (he : s.err = false)
    (hl : legalIn i s.mode = true) (hf : ruleFault i s = some f) :
    exec i s = .next (raiseFault f i.opcode s) :=
  exec_of_error he hl (by rw [ruleOf_eq, hf]; rfl)

/-- A command MODE allows, whose checks find nothing, has its effect. -/
theorem exec_of_no_fault (i : Instr) {s : State} (he : s.err = false) (hl : legalIn i s.mode = true)
    (hf : ruleFault i s = none) : exec i s = .next (ruleEffect i s) :=
  exec_of_ok he hl (by rw [ruleOf_eq, hf]; rfl)

/-- A command is dropped, faults, or has its effect, by ERR, by MODE and by its checks. -/
theorem exec_cases_of_checks {i : Instr} {s t : State} (h : exec i s = .next t) :
    (s.err = true ∧ t = s) ∨
    (s.err = false ∧ legalIn i s.mode = false ∧ t = raiseFault .mode i.opcode s) ∨
    (s.err = false ∧ legalIn i s.mode = true ∧ ∃ f, ruleFault i s = some f ∧ t = raiseFault f i.opcode s) ∨
    (s.err = false ∧ legalIn i s.mode = true ∧ ruleFault i s = none ∧ t = ruleEffect i s) := by
  cases he : s.err with
  | true => rw [exec_of_err he] at h; injection h with h; simp [h]
  | false =>
    cases hl : legalIn i s.mode with
    | false => rw [exec_of_illegalMode he hl] at h; injection h with h; simp [h]
    | true =>
      cases hf : ruleFault i s with
      | some f => rw [exec_of_fault i he hl hf] at h; injection h with h; simp [h]
      | none => rw [exec_of_no_fault i he hl hf] at h; injection h with h; simp [h]

end Sys2Proof.Machine
end

section
/-! ### What is read from stores that agree on the addressable bits, and what is written to them (R107, R108) -/

namespace Sys2Proof.Machine

/-- Two stores agree in the bits `0 .. cap - 1`. -/
def SameBits (cap : Nat) (m n : Memory) : Prop := ∀ i, i < cap → n.bit i = m.bit i

variable {cap i n : Nat} {m m' : Memory}

theorem SameBits.memRead (h : SameBits cap m m') (hi : i + n ≤ cap) : memRead m' i n = memRead m i n := by
  refine BitVec.eq_of_getLsbD_eq fun t ht => ?_
  rw [getLsbD_memRead, getLsbD_memRead, h _ (by omega)]

theorem SameBits.memWrite (h : SameBits cap m m') (v : Word) :
    SameBits cap (memWrite m i n v) (memWrite m' i n v) := fun x hx => by
  rw [bit_memWrite, bit_memWrite, h x hx]

theorem SameBits.setPositions (h : SameBits cap m m') (pos : Nat → Nat) (k : Nat) :
    SameBits cap (m.setPositions pos k) (m'.setPositions pos k) := fun x hx => by
  rw [Bool.eq_iff_iff, bit_setPositions, bit_setPositions, h x hx]

theorem SameBits.allSet (h : SameBits cap m m') {pos : Nat → Nat} (hpos : ∀ hf, pos hf < cap) (k : Nat) :
    m'.allSet pos k = m.allSet pos k := by
  rw [Bool.eq_iff_iff, allSet_iff, allSet_iff]
  simp only [h _ (hpos _)]

/-- The construction loop zeroes every addressable bit, whatever the block width. -/
theorem SameBits.zeroBelow (p q : Params) (m m' : Memory) {size : Nat} (hcap : cap ≤ size) :
    SameBits cap (m.zeroBelow (bytesInUse p size)) (m'.zeroBelow (bytesInUse q size)) := fun x hx => by
  rw [bit_zeroBelow, bit_zeroBelow, if_pos (div_lt_bytesInUse q (by omega)),
    if_pos (div_lt_bytesInUse p (by omega))]

/-- The fill loop writes every addressable bit, whatever the block width. -/
theorem SameBits.setAllBelow (p q : Params) (m m' : Memory) (v : Bool) :
    SameBits cap (m.setAllBelow (bytesInUse p cap) v) (m'.setAllBelow (bytesInUse q cap) v) := fun x hx => by
  rw [bit_setAllBelow, bit_setAllBelow, if_pos (div_lt_bytesInUse q hx), if_pos (div_lt_bytesInUse p hx)]

end Sys2Proof.Machine
end

section
/-! ### Block width and store exchanged: what every command makes of it

A state that looks the same as `s` is `s` with another block width and another store that agrees in the addressable
bits (`SameVisible.eq_withBlocks`).  Both simulations below run a command, or an access, on such a pair. -/

namespace Sys2Proof.Machine

/-- The state with block width `w` and bit store `m`. -/
def State.withBlocks (s : State) (w : BlockWidth) (m : Memory) : State :=
  { s with params := { s.params with blockWidth := w }, store := m }

variable {s s' : State} {w : BlockWidth} {m : Memory}

theorem SameBits.sameVisible (h : SameBits s.capacity.toNat s.store m) (w : BlockWidth) :
    SameVisible s (s.withBlocks w m) := by
  constructor
  case bits => exact h
  all_goals rfl

theorem SameVisible.eq_withBlocks {t : State} (h : SameVisible s t) :
    t = s.withBlocks t.params.blockWidth t.store := by
  cases t
  rw [State.withBlocks, State.mk.injEq]
  exact ⟨h.params, h.err, h.errCode, h.errOp, h.mode, h.arg0, h.arg1, h.arg2, h.result, h.result1, h.capacity,
    h.hashCount, rfl, h.pending, h.replies⟩

/-- No check reads the block width or the store. -/
@[simp] theorem ruleFault_withBlocks (i : Instr) (s : State) (w : BlockWidth) (m : Memory) :
    ruleFault i (s.withBlocks w m) = ruleFault i s := by
  cases i <;> rfl

/-- A rule's effect on two stores that agree in the addressable bits: the registers agree, and the stores do again. -/
theorem ruleEffect_withBlocks {i : Instr} (hf : ruleFault i s = none) (hb : i = .blook → 1 ≤ s.capacity.toNat)
    (hm : SameBits s.capacity.toNat s.store m) :
    ∃ m', ruleEffect i (s.withBlocks w m) = (ruleEffect i s).withBlocks w m' ∧
      SameBits (ruleEffect i s).capacity.toNat (ruleEffect i s).store m' := by
  cases i with
  | vinit => exact ⟨_, rfl, .zeroBelow s.params (s.withBlocks w m).params _ _ le_rfl⟩
  | vget =>
    refine ⟨m, ?_, hm⟩
    have hread := hm.memRead (i := s.arg0.toNat) (n := 1) (indexFault_none hf)
    simp only [ruleEffect, State.withBlocks, hread]
  | vset v => exact ⟨_, rfl, hm.memWrite _⟩
  | vgetf =>
    refine ⟨m, ?_, hm⟩
    have hread := hm.memRead (i := s.arg0.toNat) (n := fieldLength s) (fieldFault_none hf).2
    simp only [ruleEffect, State.withBlocks, hread]
  | vsetf => exact ⟨_, rfl, hm.memWrite _⟩
  | vfill v => exact ⟨_, rfl, .setAllBelow s.params (s.withBlocks w m).params _ _ v⟩
  | binit =>
    exact ⟨_, rfl, .zeroBelow s.params (s.withBlocks w m).params _ _ (BitVec.toNat_ofNat .. ▸ Nat.mod_le _ _)⟩
  | bins => exact ⟨_, rfl, hm.setPositions _ _⟩
  | blook =>
    refine ⟨m, ?_, hm⟩
    have hall := hm.allSet (fun hf => hashPosition_lt s hf (hb rfl)) s.hashCount.toNat
    have hpos : hashPosition (s.withBlocks w m) = hashPosition s := rfl
    simp only [ruleEffect, hpos]
    simp only [State.withBlocks, hall]
  | bsize => exact ⟨m, rfl, hm⟩

/-- R107: a command makes of the other block width and store what it makes of its own. -/
theorem exec_withBlocks {i : Instr} (h : exec i s = .next s') (hb : s.mode = .bloom → 1 ≤ s.capacity.toNat)
    (hm : SameBits s.capacity.toNat s.store m) :
    ∃ m', exec i (s.withBlocks w m) = .next (s'.withBlocks w m') ∧
      SameBits s'.capacity.toNat s'.store m' := by
  rcases exec_cases_of_checks h with ⟨he, rfl⟩ | ⟨he, hl, rfl⟩ | ⟨he, hl, f, hf, rfl⟩ | ⟨he, hl, hf, rfl⟩
  · exact ⟨m, exec_of_err he, hm⟩
  · exact ⟨m, exec_of_illegalMode he hl, hm⟩
  · exact ⟨m, exec_of_fault i he hl ((ruleFault_withBlocks ..).trans hf), hm⟩
  · have hcap : i = .blook → 1 ≤ s.capacity.toNat := fun hi => hb (by subst hi; simpa [legalIn] using hl)
    obtain ⟨m', heff, hm'⟩ := ruleEffect_withBlocks (w := w) hf hcap hm
    exact ⟨m', heff ▸ exec_of_no_fault i he hl ((ruleFault_withBlocks ..).trans hf), hm'⟩

/-- Settles O32: a state that looks the same is the state with its block width and store exchanged. -/
theorem blockWidthIndependence : Obligations.BlockWidthIndependence := by
  unfold Obligations.BlockWidthIndependence
  intro i s t s' hst hb hx
  obtain ⟨m', hx', hm'⟩ := exec_withBlocks (w := t.params.blockWidth) hx hb hst.bits
  rw [← hst.eq_withBlocks] at hx'
  exact ⟨_, hx', hm'.sameVisible _⟩

end Sys2Proof.Machine
end

section
/-! ### The store exchanged under one block width: every access of the host (R108, R212) -/

namespace Sys2Proof.Machine

/-- The state with bit store `m`. -/
def State.withStore (s : State) (m : Memory) : State := { s with store := m }

variable {s s' : State} {m : Memory}

/-- Exchanging the store alone is `withBlocks` with the state's own block width. -/
theorem withBlocks_self (s : State) (m : Memory) : s.withBlocks s.params.blockWidth m = s.withStore m := rfl

theorem exec_withStore {i : Instr} (h : exec i s = .next s') (hb : s.mode = .bloom → 1 ≤ s.capacity.toNat)
    (hm : SameBits s.capacity.toNat s.store m) :
    ∃ m', exec i (s.withStore m) = .next (s'.withStore m') ∧ SameBits s'.capacity.toNat s'.store m' := by
  obtain ⟨m', hx, hm'⟩ := exec_withBlocks (w := s.params.blockWidth) h hb hm
  rw [withBlocks_self, ← (exec_frame h).params, withBlocks_self] at hx
  exact ⟨m', hx, hm'⟩

theorem writeReg_withStore {r : Reg} {v : Word} (h : writeReg r v s = .next s')
    (hb : s.mode = .bloom → 1 ≤ s.capacity.toNat) (hm : SameBits s.capacity.toNat s.store m) :
    ∃ m', writeReg r v (s.withStore m) = .next (s'.withStore m') ∧ SameBits s'.capacity.toNat s'.store m' := by
  rcases writeReg_cases h with ⟨rfl, i, hd, hx⟩ | ⟨rfl, ⟨e, hd⟩, rfl⟩ | ⟨rfl, rfl⟩ | ⟨rfl, rfl⟩ | ⟨rfl, rfl⟩ |
    ⟨rfl, rfl⟩ | ⟨hreg, rfl⟩
  · rw [writeReg, commandWrite_of_decode hd]
    exact exec_withStore hx hb hm
  · rw [writeReg, commandWrite_of_error hd]
    cases he : s.err with
    | true => rw [illegalCommand_of_err he, illegalCommand_of_err (s := s.withStore m) he]; exact ⟨m, rfl, hm⟩
    | false =>
      rw [illegalCommand_of_no_err he, illegalCommand_of_no_err (s := s.withStore m) he]
      exact ⟨m, rfl, hm⟩
  · rw [writeReg]
    cases hv : v.getLsbD 0 with
    | true => rw [statusWrite_of_set hv, statusWrite_of_set hv]; exact ⟨m, rfl, hm⟩
    | false => rw [statusWrite_of_clear hv, statusWrite_of_clear hv]; exact ⟨m, rfl, hm⟩
  · exact ⟨m, rfl, hm⟩
  · exact ⟨m, rfl, hm⟩
  · exact ⟨m, rfl, hm⟩
  · exact ⟨m, writeReg_readOnly hreg v _, hm⟩

/-- No register shows the store. -/
@[simp] theorem readReg_withStore (r : Reg) (s : State) (m : Memory) : readReg r (s.withStore m) = readReg r s := by
  cases r <;> rfl

/-- A read gets the same reply whatever the store holds. -/
theorem perform_read_withStore {a : HostAccess} (ha : a.isRead = true) (h : perform a s = .next s') (m : Memory) :
    ∃ r, s' = s.withReplies r ∧ perform a (s.withStore m) = .next ((s.withReplies r).withStore m) := by
  cases a with
  | read n =>
    simp only [perform, hostRead] at h ⊢
    cases hn : registerOf n with
    | none => rw [hn] at h; cases h
    | some reg =>
      rw [hn] at h
      injection h with h
      exact ⟨_, h.symm, by simp only [readReg_withStore]; rfl⟩
  | busRead address size =>
    simp only [perform, busRead, show (s.withStore m).params = s.params from rfl, readReg_withStore] at h ⊢
    cases hb : busRegister s.params address size with
    | error e => rw [hb] at h; cases h
    | ok n =>
      simp only [hb] at h ⊢
      cases hn : registerOf n with
      | none => rw [hn] at h; cases h
      | some reg =>
        rw [hn] at h
        injection h with h
        exact ⟨_, h.symm, rfl⟩
  | write | busWrite | reset => cases ha

/-- One access makes of another store what it makes of the state's own. -/
theorem perform_withStore {a : HostAccess} (h : perform a s = .next s')
    (hb : s.mode = .bloom → 1 ≤ s.capacity.toNat) (hm : SameBits s.capacity.toNat s.store m) :
    ∃ m', perform a (s.withStore m) = .next (s'.withStore m') ∧ SameBits s'.capacity.toNat s'.store m' := by
  rcases perform_cases h with ⟨rfl, rfl⟩ | ⟨ha, _⟩ | ⟨r, v, hw, _, hr⟩
  · exact ⟨_, rfl, fun i hi => absurd hi (Nat.not_lt_zero i)⟩
  · obtain ⟨r, rfl, hread⟩ := perform_read_withStore ha h m
    exact ⟨m, hread, hm⟩
  · rw [perform_of_registerWrite (s := s.withStore m) hw, hostWrite_number]
    exact writeReg_withStore hr hb hm

theorem performAll_withStore {accesses : List HostAccess} (hs : s.Inv)
    (hm : SameBits s.capacity.toNat s.store m) (h : performAll accesses s = .next s') :
    ∃ m', performAll accesses (s.withStore m) = .next (s'.withStore m') ∧
      SameBits s'.capacity.toNat s'.store m' := by
  induction accesses generalizing s m with
  | nil =>
    injection h with h
    subst h
    exact ⟨m, rfl, hm⟩
  | cons a rest ih =>
    obtain ⟨u, hp, hrest⟩ := performAll_cons_next h
    obtain ⟨m1, hp1, hm1⟩ := perform_withStore hp hs.bloom_nonempty hm
    rw [performAll_cons hp1]
    exact ih (perform_keeps_inv hs hp) hm1 hrest

/-- Settles O33: the run from the other state is the run with its store exchanged at every access. -/
theorem paddingNeverObserved : Obligations.PaddingNeverObserved := by
  unfold Obligations.PaddingNeverObserved
  intro accesses s t s' hs hst hparams h
  obtain ⟨m', hrun, hm'⟩ := performAll_withStore hs hst.bits h
  have ht : t = s.withStore t.store := by rw [← withBlocks_self, ← hparams]; exact hst.eq_withBlocks
  rw [← ht] at hrun
  exact ⟨_, hrun, hm'.sameVisible s'.params.blockWidth, rfl⟩

end Sys2Proof.Machine
end

section
/-! ### The obligations on the vector commands (40_bitvector.md R100 to R106, R111, R112) -/

namespace Sys2Proof.Machine

variable {s : State}

/-- What R183 asks of MODE for the five vector commands but VINIT, from both sides. -/
theorem legal_of_vector (h : s.mode = .vector) : (s.mode == Mode.vector) = true := beq_iff_eq.mpr h

theorem illegal_of_not_vector (h : s.mode ≠ .vector) : (s.mode == Mode.vector) = false := beq_eq_false_iff_ne.mpr h

/-- A store byte lies in a block in use when its bits do: a block is a whole number of bytes (R34, R35). -/
theorem div_lt_bytesInUse_iff (p : Params) (cap i : Nat) :
    i / 8 < bytesInUse p cap ↔
      i / blockBits p.blockWidth < (cap + (blockBits p.blockWidth - 1)) / blockBits p.blockWidth := by
  unfold bytesInUse blocksInUse
  cases p.blockWidth <;> simp only [blockBits] <;> omega

/-- `MemRead` of one bit, as the register shows it. -/
theorem memRead_one (m : Memory) (i : Nat) :
    (memRead m i 1).setWidth 64 = if m.bit i then (1 : Word) else 0 := by
  simp only [memRead, Nat.add_zero]
  cases m.bit i <;> rfl

/-- `MemWrite` of one bit. -/
theorem bit_memWrite_one (m : Memory) (i : Nat) (v : Bool) (j : Nat) :
    (memWrite m i 1 ((BitVec.ofBool v).setWidth 64)).bit j = if j = i then v else m.bit j := by
  have hv : ((BitVec.ofBool v).setWidth 64 : Word).getLsbD 0 = v := by cases v <;> rfl
  rw [memWrite, memWrite, bit_setBit, Nat.add_zero, hv]

theorem getLsbD_mask {n : Nat} (hn : n ≤ 64) (t : Nat) : (mask n).getLsbD t = decide (t < n) := by
  rw [mask, BitVec.getLsbD_ofNat, Nat.testBit_two_pow_sub_one, ← Bool.decide_and, decide_eq_decide]
  omega

/-- The field a VGETF reads, bit by bit. -/
theorem getLsbD_fieldRead (m : Memory) (i : Nat) {n : Nat} (hn : n ≤ 64) (t : Nat) :
    ((memRead m i n).setWidth 64).getLsbD t = (decide (t < n) && m.bit (i + t)) := by
  rw [BitVec.getLsbD_setWidth, getLsbD_memRead, ← Bool.and_assoc, ← Bool.decide_and]
  congr 2
  simp only [eq_iff_iff]
  omega

/-- The field a VSETF writes, bit by bit: the mask of R106 covers the whole field. -/
theorem bit_fieldWrite (s : State) (j : Nat) :
    (memWrite s.store s.arg0.toNat (fieldLength s) (fieldValue s)).bit j =
      if s.arg0.toNat ≤ j ∧ j < s.arg0.toNat + fieldLength s then s.arg2.getLsbD (j - s.arg0.toNat)
      else s.store.bit j := by
  rw [bit_memWrite, fieldValue, BitVec.getLsbD_and, getLsbD_mask (fieldLength_le s)]
  split
  · next h => rw [decide_eq_true (by omega), Bool.and_true]
  · rfl

/-- A field written and read back (R112 (b)). -/
theorem fieldRead_fieldWrite (m : Memory) (i : Nat) {n : Nat} (hn : n ≤ 64) (v : Word) :
    (memRead (memWrite m i n (v &&& mask n)) i n).setWidth 64 = v &&& mask n := by
  refine BitVec.eq_of_getLsbD_eq fun t ht => ?_
  simp only [getLsbD_fieldRead _ _ hn, bit_memWrite, BitVec.getLsbD_and, getLsbD_mask hn]
  by_cases h : t < n <;> simp [h]

/-- Settles O22. -/
theorem vinitResult : Obligations.VinitResult := by
  unfold Obligations.VinitResult
  refine ⟨decode_encode .vinit, fun s he => ⟨fun hfit => ?_, fun hbig => ?_⟩⟩
  · refine ⟨_, exec_of_no_fault .vinit he rfl (if_neg hfit.not_gt), fun i => ?_⟩
    simp only [bit_zeroBelow, div_lt_bytesInUse_iff]
  · exact exec_of_fault .vinit he rfl (if_pos hbig)

/-- Settles O23. -/
theorem vgetResult : Obligations.VgetResult := by
  unfold Obligations.VgetResult
  refine ⟨decode_encode .vget, fun s he hm => exec_of_illegalMode he (illegal_of_not_vector hm),
    fun s he hm => ⟨fun hi => ?_, fun hi => exec_of_fault .vget he (legal_of_vector hm) (indexFault_of_le hi)⟩⟩
  rw [← memRead_one]
  exact exec_of_no_fault .vget he (legal_of_vector hm) (indexFault_of_lt hi)

/-- Settles O24. -/
theorem vsetResult : Obligations.VsetResult := by
  unfold Obligations.VsetResult
  refine ⟨decode_encode (.vset false), decode_encode (.vset true),
    fun v s he hm => exec_of_illegalMode he (illegal_of_not_vector hm),
    fun v s he hm => ⟨fun hi => ?_, fun hi => exec_of_fault (.vset v) he (legal_of_vector hm) (indexFault_of_le hi)⟩⟩
  exact ⟨_, exec_of_no_fault (.vset v) he (legal_of_vector hm) (indexFault_of_lt hi), bit_memWrite_one _ _ v⟩

/-- Settles O25. -/
theorem vgetfResult : Obligations.VgetfResult := by
  unfold Obligations.VgetfResult
  refine ⟨decode_encode .vgetf, fun s he hm => exec_of_illegalMode he (illegal_of_not_vector hm),
    fun s he hm => ⟨fun h1 hin => ?_,
      fun h0 => exec_of_fault .vgetf he (legal_of_vector hm) (fieldFault_of_zero h0),
      fun h1 hpast => exec_of_fault .vgetf he (legal_of_vector hm) (fieldFault_of_past h1 hpast)⟩⟩
  exact ⟨_, exec_of_no_fault .vgetf he (legal_of_vector hm) (fieldFault_of_inside h1 hin),
    getLsbD_fieldRead _ _ (fieldLength_le s)⟩

/-- Settles O26. -/
theorem vsetfResult : Obligations.VsetfResult := by
  unfold Obligations.VsetfResult
  refine ⟨decode_encode .vsetf, fun s he hm => exec_of_illegalMode he (illegal_of_not_vector hm),
    fun s he hm => ⟨fun h1 hin => ?_,
      fun h0 => exec_of_fault .vsetf he (legal_of_vector hm) (fieldFault_of_zero h0),
      fun h1 hpast => exec_of_fault .vsetf he (legal_of_vector hm) (fieldFault_of_past h1 hpast)⟩⟩
  exact ⟨_, exec_of_no_fault .vsetf he (legal_of_vector hm) (fieldFault_of_inside h1 hin), bit_fieldWrite s⟩

/-- Settles O27. -/
theorem vfillResult : Obligations.VfillResult := by
  unfold Obligations.VfillResult
  refine ⟨decode_encode (.vfill false), decode_encode (.vfill true),
    fun v s he hm => exec_of_illegalMode he (illegal_of_not_vector hm), fun v s he hm => ?_⟩
  refine ⟨_, exec_of_no_fault (.vfill v) he (legal_of_vector hm) rfl, fun i => ?_⟩
  simp only [bit_setAllBelow, div_lt_bytesInUse_iff]

/-- A command after which ERR = 1 was dropped or faulted, and left the store as it was (R182, R186). -/
theorem exec_store_of_err {i : Instr} {s t : State} (h : exec i s = .next t) (ht : t.err = true) :
    t.store = s.store := by
  rcases exec_outcome h with ⟨_, rfl⟩ | ⟨_, f, rfl⟩ | ⟨he, _, hr⟩
  · rfl
  · rfl
  · exact absurd ht (by rw [(ruleOf_frame hr).2.err, he]; decide)

/-- The reading commands leave the store as it was (R101, R105). -/
theorem exec_store_of_reading {i : Instr} {s t : State} (h : exec i s = .next t) (hi : i = .vget ∨ i = .vgetf) :
    t.store = s.store := by
  rcases exec_cases_of_checks h with ⟨_, rfl⟩ | ⟨_, _, rfl⟩ | ⟨_, _, f, _, rfl⟩ | ⟨_, _, _, rfl⟩
  · rfl
  · rfl
  · rfl
  · rcases hi with rfl | rfl <;> rfl

/-- VGET answers the bit it reads (R101). -/
theorem vget_answers (he : s.err = false) (hm : s.mode = .vector) (hi : s.arg0.toNat < s.capacity.toNat) {b : Bool}
    (hb : s.store.bit s.arg0.toNat = b) :
    ∃ u, exec .vget s = .next u ∧ u.err = false ∧ u.result = if b then 1 else 0 :=
  ⟨_, exec_of_no_fault .vget he (legal_of_vector hm) (indexFault_of_lt hi), he, hb ▸ memRead_one ..⟩

/-- Settles O28: each law reads one bit, or one field, of the store the command before it wrote. -/
theorem vectorLaws : Obligations.VectorLaws := by
  unfold Obligations.VectorLaws
  refine ⟨fun b s he hm hi => ?_, fun s he hm h1 hin => ?_, fun b s he hm => ?_, fun i s t h hi => ?_⟩
  · obtain ⟨u, hu⟩ := vget_answers (s := ruleEffect (.vset b) s) he hm hi
      (by rw [ruleEffect, bit_memWrite_one, if_pos rfl])
    exact ⟨_, u, exec_of_no_fault (.vset b) he (legal_of_vector hm) (indexFault_of_lt hi), hu⟩
  · have hf := fieldFault_of_inside h1 hin
    refine ⟨_, _, exec_of_no_fault .vsetf he (legal_of_vector hm) hf,
      exec_of_no_fault .vgetf he (legal_of_vector hm) hf, he, ?_⟩
    exact fieldRead_fieldWrite _ _ (fieldLength_le s) _
  · refine ⟨_, exec_of_no_fault (.vfill b) he (legal_of_vector hm) rfl, fun i hi => ?_⟩
    exact vget_answers (s := { ruleEffect (.vfill b) s with arg0 := i }) he hm hi
      (by rw [ruleEffect, bit_setAllBelow, if_pos (div_lt_bytesInUse _ hi)])
  · rcases hi with hget | hgetf | ht
    · exact exec_store_of_reading h (.inl hget)
    · exact exec_store_of_reading h (.inr hgetf)
    · exact exec_store_of_err h ht

end Sys2Proof.Machine
end

section
/-! ### The block-level read (40_bitvector.md R109): shifting, masking and joining blocks are reads of fields

Each value the algorithm holds is the field read so far, `(memRead m i pos).toNat`, where `i + pos` is the start of the
next block. -/

namespace Sys2Proof.Machine

theorem blockBits_pos (w : BlockWidth) : 0 < blockBits w := by cases w <;> decide

theorem blockBits_le (w : BlockWidth) : blockBits w ≤ 64 := by cases w <;> decide

variable (m : Memory) {B i j k n count : Nat}

/-- `MemRead` as a number, bit by bit. -/
theorem testBit_memRead (i n t : Nat) :
    (memRead m i n).toNat.testBit t = (decide (t < n) && m.bit (i + t)) := by
  rw [BitVec.testBit_toNat, getLsbD_memRead]

/-- A field shifted right is the field without its low bits. -/
theorem memRead_shiftRight (i n k : Nat) :
    (memRead m i n).toNat >>> k = (memRead m (i + k) (n - k)).toNat := by
  refine Nat.eq_of_testBit_eq fun t => ?_
  rw [Nat.testBit_shiftRight, testBit_memRead, testBit_memRead, Nat.add_assoc]
  congr 1
  rw [decide_eq_decide]
  omega

/-- A field masked is its low bits. -/
theorem memRead_and_mask (hk : k ≤ n) :
    (memRead m i n).toNat &&& (2 ^ k - 1) = (memRead m i k).toNat := by
  refine Nat.eq_of_testBit_eq fun t => ?_
  rw [Nat.testBit_and, testBit_memRead, testBit_memRead, Nat.testBit_two_pow_sub_one]
  by_cases ht : t < k
  · simp [ht, show t < n by omega]
  · simp [ht]

/-- A field and the one that follows it are one field. -/
theorem memRead_or_shiftLeft (h : i + k = j) :
    (memRead m i k).toNat ||| (memRead m j n).toNat <<< k = (memRead m i (k + n)).toNat := by
  refine Nat.eq_of_testBit_eq fun t => ?_
  rw [Nat.testBit_or, Nat.testBit_shiftLeft, testBit_memRead, testBit_memRead, testBit_memRead]
  by_cases ht : t < k
  · simp [ht, show ¬ k ≤ t by omega, show t < k + n by omega]
  · simp [ht, show k ≤ t by omega, show t - k < n ↔ t < k + n by omega, show j + (t - k) = i + t by omega]

/-- The loop over the middle blocks joins them to the field read so far. -/
theorem readMiddle_memRead (h : i + k = j * B) :
    readMiddle m B count j (memRead m i k).toNat k = ((memRead m i (k + count * B)).toNat, k + count * B) := by
  induction count generalizing j k with
  | zero => rw [readMiddle, Nat.zero_mul, Nat.add_zero]
  | succ count ih =>
    rw [readMiddle, block, memRead_or_shiftLeft m h, ih (by rw [Nat.succ_mul]; omega),
      show k + B + count * B = k + (count + 1) * B by rw [Nat.succ_mul]; omega]

/-- The first block holds `B - i % B` bits of the field at `i` before the next block starts. -/
theorem add_first_part (hB : 0 < B) (i : Nat) : i + (B - i % B) = (i / B + 1) * B := by
  have hi := Nat.div_add_mod' i B
  have hoff := Nat.mod_lt i hB
  rw [Nat.succ_mul]
  omega

/-- Where a field of `n` bits at `i` ends in a later block, the first block and the `count` middle ones hold all of it
that lies before that block. -/
theorem last_part (hB : 0 < B) (hn : 1 ≤ n) (hmany : i / B ≠ (i + n - 1) / B)
    (hcount : count = (i + n - 1) / B - i / B - 1) :
    i + (B - i % B + count * B) = (i + n - 1) / B * B ∧ B - i % B + count * B ≤ n ∧
      n - (B - i % B + count * B) ≤ B := by
  have hle : i / B ≤ (i + n - 1) / B := Nat.div_le_div_right (by omega)
  have hlast : (i + n - 1) / B = i / B + 1 + count := by omega
  have hstart : i + (B - i % B + count * B) = (i + n - 1) / B * B := by
    rw [hlast, Nat.add_mul _ count, ← add_first_part hB, Nat.add_assoc]
  have hend := Nat.div_add_mod' (i + n - 1) B
  have hoff := Nat.mod_lt (i + n - 1) hB
  exact ⟨hstart, by omega, by omega⟩

/-- The block-level form reads the field: in one block by a shift and a mask, in more by joining the parts. -/
theorem blockFieldRead_eq (hB : 0 < B) (hn : 1 ≤ n) : blockFieldRead m B i n = (memRead m i n).toNat := by
  unfold blockFieldRead
  dsimp only
  rw [block, memRead_shiftRight, Nat.div_add_mod']
  split
  · next hone =>
    have hend := Nat.lt_div_mul_add (a := i + n - 1) hB
    have hi := Nat.div_add_mod' i B
    exact memRead_and_mask m (by rw [← hone] at hend; omega)
  · next hmany =>
    obtain ⟨hstart, hle, hrem⟩ := last_part hB hn hmany rfl
    rw [readMiddle_memRead m (add_first_part hB i)]
    dsimp only
    rw [block, memRead_and_mask m hrem, memRead_or_shiftLeft m hstart, Nat.add_sub_cancel' hle]

/-- Settles O30: the algorithm joins the field's parts, whatever the block width (`blockFieldRead_eq`). -/
theorem blockLevelRead : Obligations.BlockLevelRead := by
  unfold Obligations.BlockLevelRead
  exact fun m w i L hL _ => blockFieldRead_eq m (blockBits_pos w) hL

end Sys2Proof.Machine
end

section
/-! ### The block-level write (40_bitvector.md R110): each block written takes the field's next part

After every block the store has the bits of the bit-level write of the field's first `pos` bits
(`setBlock_extends`); the four values the algorithm forms each hold the part that lies in their block. -/

namespace Sys2Proof.Machine

variable {m m' : Memory} {B i j k n count value : Nat} {v : Word}

theorem testBit_clearBits (x y t : Nat) : (clearBits x y).testBit t = (x.testBit t && !y.testBit t) := by
  rw [clearBits, Nat.testBit_xor, Nat.testBit_and]
  cases x.testBit t <;> simp

theorem testBit_block (m : Memory) (B j o : Nat) :
    (block m B j).testBit o = (decide (o < B) && m.bit (j * B + o)) := testBit_memRead ..

/-- Bit read after block write, in the written block and in every other. -/
theorem bit_setBlock (hB : 0 < B) (hB64 : B ≤ 64) (m : Memory) (j value x : Nat) :
    (setBlock m B j value).bit x = if x / B = j then value.testBit (x % B) else m.bit x := by
  have hx := Nat.div_add_mod' x B
  have hoff := Nat.mod_lt x hB
  rw [setBlock, bit_memWrite]
  by_cases hj : x / B = j
  · subst hj
    rw [if_pos rfl, if_pos (by omega), BitVec.getLsbD_ofNat, decide_eq_true (by omega), Bool.true_and]
    congr 1
    omega
  · rw [if_neg hj, if_neg]
    rintro ⟨hlo, hhi⟩
    exact hj (Nat.div_eq_of_lt_le hlo (by rwa [Nat.succ_mul]))

/-- `value` is block `j` of `m` with the store bits `lo .. hi - 1` taken from the field `v` at `i`. -/
def HoldsPart (m : Memory) (v : Word) (B i j lo hi value : Nat) : Prop :=
  ∀ o, o < B → value.testBit o =
    if lo ≤ j * B + o ∧ j * B + o < hi then v.getLsbD (j * B + o - i) else m.bit (j * B + o)

/-- A store that has the first `k` bits of the field gets the first `n` by the write of a block that holds the rest. -/
theorem setBlock_extends (hB : 0 < B) (hB64 : B ≤ 64) (hm : ∀ x, m'.bit x = (memWrite m i k v).bit x)
    (hk : k ≤ n) (hlo : j * B ≤ i + k) (hhi : i + n ≤ j * B + B)
    (hvalue : HoldsPart m' v B i j (i + k) (i + n) value) (x : Nat) :
    (setBlock m' B j value).bit x = (memWrite m i n v).bit x := by
  have hx := Nat.div_add_mod' x B
  have hoff := Nat.mod_lt x hB
  rw [bit_setBlock hB hB64]
  by_cases hj : x / B = j
  · subst hj
    rw [if_pos rfl, hvalue _ hoff, hx, hm, bit_memWrite, bit_memWrite]
    by_cases hpart : i + k ≤ x ∧ x < i + n
    · rw [if_pos hpart, if_pos (by omega)]
    · rw [if_neg hpart]
      exact if_congr (by omega) rfl rfl
  · have hout : ¬ (i + k ≤ x ∧ x < i + n) := fun ⟨h1, h2⟩ =>
      hj (Nat.div_eq_of_lt_le (by omega) (by rw [Nat.succ_mul]; omega))
    rw [if_neg hj, hm, bit_memWrite, bit_memWrite]
    exact if_congr (by omega) rfl rfl

/-- A masked value has no bit past its length. -/
theorem getLsbD_of_toNat_lt {t : Nat} (hv : v.toNat < 2 ^ n) (ht : n ≤ t) : v.getLsbD t = false :=
  Nat.testBit_lt_two_pow (hv.trans_le (Nat.pow_le_pow_right (by decide) ht))

/-- The field inside one block: the mask clears its bits and the shifted value fills them. -/
theorem holdsPart_one (hv : v.toNat < 2 ^ n) :
    HoldsPart m v B (j * B + k) j (j * B + k) (j * B + k + n)
      (clearBits (block m B j) ((2 ^ n - 1) <<< k) &&& (2 ^ B - 1) ||| (v.toNat <<< k)) := fun o ho => by
  simp only [Nat.testBit_or, Nat.testBit_and, testBit_clearBits, Nat.testBit_shiftLeft, Nat.testBit_two_pow_sub_one,
    testBit_block, BitVec.testBit_toNat, Nat.add_sub_add_left]
  by_cases hlow : o < k
  · simp [ho, show ¬ k ≤ o by omega]
  · by_cases hin : o < k + n
    · simp [ho, show k ≤ o by omega, show o - k < n by omega, show j * B + o < j * B + k + n by omega]
    · simp [ho, show ¬ o - k < n by omega, show ¬ j * B + o < j * B + k + n by omega,
        getLsbD_of_toNat_lt hv (show n ≤ o - k by omega)]

/-- The first block of several: its low bits are kept and the value's low bits fill the rest. -/
theorem holdsPart_first (hk : k ≤ B) :
    HoldsPart m v B (j * B + k) j (j * B + k) (j * B + k + (B - k))
      ((block m B j &&& (2 ^ k - 1)) ||| ((v.toNat <<< k) &&& (2 ^ B - 1))) := fun o ho => by
  simp only [Nat.testBit_or, Nat.testBit_and, Nat.testBit_shiftLeft, Nat.testBit_two_pow_sub_one,
    testBit_block, BitVec.testBit_toNat, Nat.add_sub_add_left]
  by_cases hlow : o < k
  · simp [ho, hlow, show ¬ k ≤ o by omega]
  · simp [ho, hlow, show k ≤ o by omega, show j * B + o < j * B + k + (B - k) by omega]

/-- A middle block is the next `B` bits of the value. -/
theorem holdsPart_middle (h : i + k = j * B) :
    HoldsPart m v B i j (i + k) (i + (k + B)) ((v.toNat >>> k) &&& (2 ^ B - 1)) := fun o ho => by
  simp only [Nat.testBit_and, Nat.testBit_shiftRight, Nat.testBit_two_pow_sub_one, BitVec.testBit_toNat]
  rw [if_pos (by omega), decide_eq_true ho, Bool.and_true]
  congr 1
  omega

/-- The last block of several: the value's last bits replace its low bits and the rest is kept. -/
theorem holdsPart_last (h : i + k = j * B) (hk : k ≤ n) :
    HoldsPart m v B i j (i + k) (i + n)
      (clearBits (block m B j) (2 ^ (n - k) - 1) &&& (2 ^ B - 1) |||
        ((v.toNat >>> k) &&& (2 ^ (n - k) - 1))) := fun o ho => by
  simp only [Nat.testBit_or, Nat.testBit_and, testBit_clearBits, Nat.testBit_shiftRight, Nat.testBit_two_pow_sub_one,
    testBit_block, BitVec.testBit_toNat]
  by_cases hin : o < n - k
  · simp [ho, hin, show i + k ≤ j * B + o by omega, show j * B + o < i + n by omega,
      show j * B + o - i = k + o by omega]
  · simp [ho, hin, show ¬ j * B + o < i + n by omega]

/-- The loop over the middle blocks writes the next `count * B` bits of the field. -/
theorem bit_writeMiddle (hB : 0 < B) (hB64 : B ≤ 64) (h : i + k = j * B)
    (hm : ∀ x, m'.bit x = (memWrite m i k v).bit x) :
    (∀ x, (writeMiddle B v.toNat count m' j k).1.bit x = (memWrite m i (k + count * B) v).bit x) ∧
      (writeMiddle B v.toNat count m' j k).2 = k + count * B := by
  induction count generalizing m' j k with
  | zero => simpa [writeMiddle] using hm
  | succ count ih =>
    have hstep := setBlock_extends hB hB64 hm (Nat.le_add_right k B) (by omega) (by omega) (holdsPart_middle h)
    rw [writeMiddle, show k + (count + 1) * B = k + B + count * B by rw [Nat.succ_mul]; omega]
    exact ih (by rw [Nat.succ_mul]; omega) hstep

/-- The block-level form writes the field: block by block, each the next part. -/
theorem bit_blockFieldWrite (hB : 0 < B) (hB64 : B ≤ 64) (m : Memory) (hn : 1 ≤ n) (hv : v.toNat < 2 ^ n)
    (x : Nat) : (blockFieldWrite m B i n v.toNat).bit x = (memWrite m i n v).bit x := by
  have hi := Nat.div_add_mod' i B
  have hoff := Nat.mod_lt i hB
  have hnone : ∀ x, m.bit x = (memWrite m i 0 v).bit x := fun _ => rfl
  unfold blockFieldWrite
  dsimp only
  split
  · next hone =>
    have hend := Nat.lt_div_mul_add (a := i + n - 1) hB
    rw [← hone] at hend
    have hvalue := holdsPart_one (m := m) (B := B) (j := i / B) (k := i % B) hv
    rw [hi] at hvalue
    exact setBlock_extends hB hB64 hnone (Nat.zero_le n) (by omega) (by omega) hvalue x
  · next hmany =>
    obtain ⟨hstart, hle, hrem⟩ := last_part hB hn hmany rfl
    have hvalue := holdsPart_first (m := m) (v := v) (j := i / B) hoff.le
    rw [hi] at hvalue
    have hfirst := setBlock_extends hB hB64 hnone (Nat.zero_le _) (by omega) (by omega) hvalue
    obtain ⟨hmiddle, hpos⟩ :=
      bit_writeMiddle (count := (i + n - 1) / B - i / B - 1) hB hB64 (add_first_part hB i) hfirst
    rw [hpos]
    exact setBlock_extends hB hB64 hmiddle hle (by omega) (by omega) (holdsPart_last hstart hle) x

/-- Settles O31: every block the algorithm writes takes the field's next part, whatever the block width. -/
theorem blockLevelWrite : Obligations.BlockLevelWrite := by
  unfold Obligations.BlockLevelWrite
  exact fun m w i L v hL _ hv => bit_blockFieldWrite (blockBits_pos w) (blockBits_le w) m hL hv

end Sys2Proof.Machine
end

section
/-! ### Insert and lookup (41_bloom.md R146 to R148, R151): what each does in BLOOM mode -/

namespace Sys2Proof.Machine

variable {s : State}

/-- What R183 asks of MODE for BINS and BLOOK, from both sides. -/
theorem legal_of_bloom (h : s.mode = .bloom) : (s.mode == Mode.bloom) = true := beq_iff_eq.mpr h

theorem illegal_of_not_bloom (h : s.mode ≠ .bloom) : (s.mode == Mode.bloom) = false := beq_eq_false_iff_ne.mpr h

theorem exec_bins (he : s.err = false) (hm : s.mode = .bloom) :
    exec .bins s = .next { s with store := s.store.setPositions (hashPosition s) s.hashCount.toNat } :=
  exec_of_no_fault .bins he (legal_of_bloom hm) rfl

theorem exec_blook (he : s.err = false) (hm : s.mode = .bloom) {b : Bool}
    (hb : s.store.allSet (hashPosition s) s.hashCount.toNat = b) :
    exec .blook s = .next { s with result := if b then 1 else 0 } := by
  have hx := exec_of_no_fault .blook he (legal_of_bloom hm) rfl
  rw [ruleEffect, hb] at hx
  cases b <;> exact hx

/-- A lookup answers 1 where the bits at all positions of the hash are 1. -/
theorem exec_blook_of_all (he : s.err = false) (hm : s.mode = .bloom)
    (h : ∀ hf, hf < s.hashCount.toNat → s.store.bit (hashPosition s hf) = true) :
    exec .blook s = .next { s with result := 1 } :=
  exec_blook he hm ((allSet_iff ..).mpr h)

/-- Settles O43. -/
theorem binsResult : Obligations.BinsResult := by
  unfold Obligations.BinsResult
  refine ⟨decode_encode .bins, fun s he hm => exec_of_illegalMode he (illegal_of_not_bloom hm), fun s he hm => ?_⟩
  exact ⟨_, exec_bins he hm, bit_setPositions _ _ _⟩

/-- Settles O44. -/
theorem blookResult : Obligations.BlookResult := by
  unfold Obligations.BlookResult
  refine ⟨decode_encode .blook, fun s he hm => exec_of_illegalMode he (illegal_of_not_bloom hm),
    fun s he hm => ⟨exec_blook_of_all he hm, fun ⟨hf, hlt, h0⟩ => exec_blook (b := false) he hm ?_⟩⟩
  rw [← Bool.not_eq_true, allSet_iff]
  exact fun h => absurd (h hf hlt) (by simp [h0])

/-- Settles O42. -/
theorem bloomPositions : Obligations.BloomPositions := by
  unfold Obligations.BloomPositions
  exact fun s hf h => ⟨rfl, hashPosition_lt s hf h⟩

/-- Settles O45: there is no position to set, and none to find clear. -/
theorem emptyHashCount : Obligations.EmptyHashCount := by
  unfold Obligations.EmptyHashCount
  intro s he hm hk
  refine ⟨?_, exec_blook_of_all he hm fun hf hlt => absurd hlt (by simp [hk])⟩
  have hk0 : s.hashCount.toNat = 0 := by rw [hk]; rfl
  rw [exec_bins he hm, hk0]
  rfl

end Sys2Proof.Machine
end

section
/-! ### A filter between constructions (R152 (a), (c), (d); R31, R32, R41) -/

namespace Sys2Proof.Machine

variable {s t u : State}

/-- In BLOOM mode a command that does not construct writes the store only by setting positions, as BINS does. -/
theorem exec_store_of_bloom {i : Instr} (h : exec i s = .next t) (hm : s.mode = .bloom) (hv : i ≠ .vinit)
    (hb : i ≠ .binit) : t.store = s.store ∨ ∃ pos k, t.store = s.store.setPositions pos k := by
  rcases exec_cases_of_checks h with ⟨_, rfl⟩ | ⟨_, _, rfl⟩ | ⟨_, _, f, _, rfl⟩ | ⟨_, hl, _, rfl⟩
  · exact .inl rfl
  · exact .inl rfl
  · exact .inl rfl
  · rw [hm] at hl
    cases i with
    | vinit => exact absurd rfl hv
    | binit => exact absurd rfl hb
    | vget | vset | vgetf | vsetf | vfill => cases hl
    | bins => exact .inr ⟨_, _, rfl⟩
    | blook | bsize => exact .inl rfl

/-- In BLOOM mode no access but a construction or a reset clears a store bit. -/
theorem bit_of_perform {a : HostAccess} (h : perform a s = .next t) (hm : s.mode = .bloom)
    (ha : a.mayConstruct s.params = false) {i : Nat} (hi : s.store.bit i = true) : t.store.bit i = true := by
  cases effect_of_perform h with
  | reset hr => exact absurd ha (by rw [hr, mayConstruct_reset]; decide)
  | command j t hc hx =>
    have hj : ¬ (j = .vinit ∨ j = .binit) := fun hj => by simp [mayConstruct_of_commandOf hc hj] at ha
    rcases exec_store_of_bloom hx hm (hj ∘ .inl) (hj ∘ .inr) with hst | ⟨pos, k, hst⟩
    · rwa [hst]
    · rw [hst, bit_setPositions]
      exact .inl hi
  | reply | illegal | cleared | arg0 | arg1 | arg2 | ignored => exact hi

/-- `u` still holds the filter of `s`, with the hash in ARG0 of `s` inserted. -/
structure HoldsHashOf (s u : State) : Prop where
  params : u.params = s.params
  mode : u.mode = .bloom
  capacity : u.capacity = s.capacity
  hashCount : u.hashCount = s.hashCount
  inserted : ∀ hf, hf < s.hashCount.toNat → u.store.bit (hashPosition s hf) = true

theorem HoldsHashOf.perform (h : HoldsHashOf s t) {a : HostAccess} (ha : a.mayConstruct s.params = false)
    (hp : perform a t = .next u) : HoldsHashOf s u := by
  rw [← h.params] at ha
  obtain ⟨hmode, hcap, hk⟩ := structural_of_perform hp ha
  exact {
    params := (perform_params hp).trans h.params
    mode := hmode.trans h.mode
    capacity := hcap.trans h.capacity
    hashCount := hk.trans h.hashCount
    inserted := fun hf hlt => bit_of_perform hp h.mode ha (h.inserted hf hlt) }

theorem HoldsHashOf.performAll {accesses : List HostAccess} (h : HoldsHashOf s t)
    (ha : ∀ a ∈ accesses, a.mayConstruct s.params = false) (hp : performAll accesses t = .next u) :
    HoldsHashOf s u := by
  induction accesses generalizing t with
  | nil =>
    injection hp with hp
    exact hp ▸ h
  | cons a rest ih =>
    obtain ⟨t', hfirst, hrest⟩ := performAll_cons_next hp
    obtain ⟨hahead, hatail⟩ := List.forall_mem_cons.mp ha
    exact ih (h.perform hahead hfirst) hatail hrest

theorem HoldsHashOf.bins (hm : s.mode = .bloom) :
    HoldsHashOf s { s with store := s.store.setPositions (hashPosition s) s.hashCount.toNat } :=
  { params := rfl, mode := hm, capacity := rfl, hashCount := rfl
    inserted := fun hf hlt => (bit_setPositions ..).mpr (.inr ⟨hf, hlt, rfl⟩) }

/-- The positions are those of the inserted hash when ARG0 holds it again. -/
theorem HoldsHashOf.hashPosition_eq (h : HoldsHashOf s u) (harg : u.arg0 = s.arg0) :
    hashPosition u = hashPosition s := by
  funext hf
  simp only [hashPosition, capacityBits, h.params, h.capacity, harg]

theorem HoldsHashOf.exec_blook (h : HoldsHashOf s u) (he : u.err = false) (harg : u.arg0 = s.arg0) :
    exec .blook u = .next { u with result := 1 } :=
  exec_blook_of_all he h.mode (by rw [h.hashPosition_eq harg, h.hashCount]; exact h.inserted)

/-- Settles O46: every access keeps the filter and the bits of the hash (`HoldsHashOf.perform`). -/
theorem noFalseNegatives : Obligations.NoFalseNegatives := by
  unfold Obligations.NoFalseNegatives
  intro s accesses he hm ha
  refine ⟨_, exec_bins he hm, he, fun u hp hu harg => ?_⟩
  exact ⟨_, ((HoldsHashOf.bins hm).performAll ha hp).exec_blook hu harg, hu, rfl⟩

/-- Settles O48. -/
theorem bloomStoreMonotone : Obligations.BloomStoreMonotone := by
  unfold Obligations.BloomStoreMonotone
  refine ⟨fun a s t h hm ha => ?_, fun s t h ht => ?_⟩
  · obtain ⟨hmode, hcap, hk⟩ := structural_of_perform h ha
    exact ⟨hmode.trans hm, hcap, hk, fun i => bit_of_perform h hm ha⟩
  · rcases exec_outcome h with ⟨_, rfl⟩ | ⟨_, f, rfl⟩ | ⟨_, _, hr⟩
    · rfl
    · cases ht
    · rw [blookRule_ok hr]

end Sys2Proof.Machine
end

section
/-! ### A sequence of inserts (R152 (b), (e)): which bits it leaves set depends on the set of hashes alone -/

namespace Sys2Proof.Machine

/-- The state after the host writes `h` to ARG0 and BINS to CMD, in BLOOM mode with ERR = 0. -/
def insertHash (s : State) (h : Word) : State := ruleEffect .bins { s with arg0 := h }

/-- Position `hf` of hash `h` in the filter `s` holds. -/
def positionOf (s : State) (h : Word) (hf : Nat) : Nat := hashPosition { s with arg0 := h } hf

variable {s : State}

/-- An insert changes ARG0 and the store only. -/
theorem positionOf_insertHash (s : State) (h : Word) : positionOf (insertHash s h) = positionOf s := rfl

theorem bit_insertHash (s : State) (h : Word) (i : Nat) :
    (insertHash s h).store.bit i = true ↔
      s.store.bit i = true ∨ ∃ hf, hf < s.hashCount.toNat ∧ positionOf s h hf = i :=
  bit_setPositions ..

/-- A bit is 1 after the inserts exactly if it was, or is a position of one of the hashes. -/
theorem bit_foldl_insertHash (s : State) (hs : List Word) (i : Nat) :
    (hs.foldl insertHash s).store.bit i = true ↔
      s.store.bit i = true ∨ ∃ h ∈ hs, ∃ hf, hf < s.hashCount.toNat ∧ positionOf s h hf = i := by
  induction hs generalizing s with
  | nil => simp
  | cons h rest ih =>
    have hk : (insertHash s h).hashCount = s.hashCount := rfl
    rw [List.foldl_cons, ih, bit_insertHash, positionOf_insertHash, hk, List.exists_mem_cons_iff, or_assoc]

theorem performAll_append {as bs : List HostAccess} {t : State} (h : performAll as s = .next t) :
    performAll (as ++ bs) s = performAll bs t := by
  induction as generalizing s with
  | nil =>
    injection h with h
    rw [List.nil_append, h]
  | cons a rest ih =>
    obtain ⟨u, hp, hrest⟩ := performAll_cons_next h
    rw [List.cons_append, performAll_cons hp, ih hrest]

theorem performAll_bins (he : s.err = false) (hm : s.mode = .bloom) (h : Word) :
    performAll (Pseudo.bins h).expand s = .next (insertHash s h) :=
  (performAll_command .bins { s with arg0 := h }).trans (exec_bins (s := { s with arg0 := h }) he hm)

theorem performAll_inserts (he : s.err = false) (hm : s.mode = .bloom) (hs : List Word) :
    performAll (hs.flatMap fun h => (Pseudo.bins h).expand) s = .next (hs.foldl insertHash s) := by
  induction hs generalizing s with
  | nil => rfl
  | cons h rest ih =>
    rw [List.flatMap_cons, performAll_append (performAll_bins he hm h)]
    exact ih (s := insertHash s h) he hm

/-! Inserts keep the store's canonical form and its two counters, so its bits make it the same data. -/

@[simp] theorem setPositions_epoch (m : Memory) (pos : Nat → Nat) (k : Nat) :
    (m.setPositions pos k).epoch = m.epoch := by
  induction k with
  | zero => rfl
  | succ k ih => rw [Memory.setPositions, setBit_epoch, ih]

theorem foldl_insertHash_zeroed (s : State) (hs : List Word) :
    (hs.foldl insertHash s).store.zeroed = s.store.zeroed := by
  induction hs generalizing s with
  | nil => rfl
  | cons h rest ih => exact (ih _).trans (setPositions_zeroed ..)

theorem foldl_insertHash_epoch (s : State) (hs : List Word) :
    (hs.foldl insertHash s).store.epoch = s.store.epoch := by
  induction hs generalizing s with
  | nil => rfl
  | cons h rest ih => exact (ih _).trans (setPositions_epoch ..)

theorem foldl_insertHash_wf (hwf : s.store.wf = true) (hs : List Word) :
    (hs.foldl insertHash s).store.wf = true := by
  induction hs generalizing s with
  | nil => exact hwf
  | cons h rest ih => exact ih (setPositions_wf _ _ _ hwf)

theorem readByte_eq_of_bit_eq {m n : Memory} (h : ∀ i, m.bit i = n.bit i) (a : Nat) :
    m.readByte a = n.readByte a := by
  refine BitVec.eq_of_getLsbD_eq fun o ho => ?_
  have hbit := h (8 * a + o)
  rwa [Memory.bit, Memory.bit, show (8 * a + o) / 8 = a by omega, show (8 * a + o) % 8 = o by omega] at hbit

/-- Settles O47: the bits are read off `bit_foldl_insertHash`, which names the hashes by membership alone. -/
theorem insertOrderIrrelevant : Obligations.InsertOrderIrrelevant := by
  unfold Obligations.InsertOrderIrrelevant
  intro s hs hs' he hm hmem
  have hbits : ∀ i, (hs.foldl insertHash s).store.bit i = (hs'.foldl insertHash s).store.bit i := fun i => by
    rw [Bool.eq_iff_iff, bit_foldl_insertHash, bit_foldl_insertHash]
    simp only [hmem]
  refine ⟨_, _, performAll_inserts he hm hs, performAll_inserts he hm hs', hbits, fun hwf => ?_⟩
  refine eq_of_readByte_eq _ _ (foldl_insertHash_wf hwf hs) (foldl_insertHash_wf hwf hs') ?_ ?_
    (readByte_eq_of_bit_eq hbits)
  · rw [foldl_insertHash_zeroed, foldl_insertHash_zeroed]
  · rw [foldl_insertHash_epoch, foldl_insertHash_epoch]

end Sys2Proof.Machine
end

section
/-! ### How narrow the first enclosure is, and the ceiling and floor of R140 it gives -/

namespace Sys2Proof.Machine

variable {n : Nat} {pb : Word}

theorem errorRateShift_le (pb : Word) : errorRateShift pb ≤ 1074 := by
  unfold errorRateShift
  omega

theorem ln2Lower_lt_one (k : Nat) : ln2Lower k < 1 := by
  have h : (ln2Lower k : ℝ) < 1 := (ln2Lower_le k).trans_lt (by linarith [Real.log_two_lt_d9])
  exact_mod_cast h

theorem logLower_errorRateU_le (k : Nat) (h : errorRateLegal pb = true) : logLower k (errorRateU pb) ≤ 1 := by
  have hu := cast_le_half (errorRateU_le h)
  have hinv : (1 - (errorRateU pb : ℝ))⁻¹ ≤ 2 := by
    rw [inv_le_comm₀ (by linarith) two_pos]
    linarith
  have hlog := Real.one_sub_inv_le_log_of_pos (x := 1 - (errorRateU pb : ℝ)) (by linarith)
  have hle : (logLower k (errorRateU pb) : ℝ) ≤ 1 := by
    linarith [logLower_le k (errorRateU_pos pb) (errorRateU_le h)]
  exact_mod_cast hle

/-- The smallest error rate is `2^-1074`. -/
theorem negLnLower_le_1075 {k : Nat} (hk : 0 < k) (h : errorRateLegal pb = true) : negLnLower k pb ≤ 1075 := by
  have hs : (errorRateShift pb : ℚ) ≤ 1074 := by exact_mod_cast errorRateShift_le pb
  have hmul := mul_le_mul hs (ln2Lower_lt_one k).le (ln2Lower_pos hk).le (by norm_num)
  unfold negLnLower
  linarith [logLower_errorRateU_le k h]

/-- How far `1 / x^2` moves when `x` moves by `e`. -/
theorem one_div_sq_sub_le {L e : ℚ} (hL : 2 / 3 ≤ L) (he : 0 ≤ e) :
    1 / (L * L) - 1 / ((L + e) * (L + e)) ≤ 8 * e := by
  have hU : 2 / 3 ≤ L + e := by linarith
  have hLU : 4 / 9 ≤ L * (L + e) := by nlinarith
  have hsum : L + (L + e) ≤ 8 * (L * (L + e)) ^ 2 := by nlinarith
  rw [div_sub_div _ _ (by positivity) (by positivity), div_le_iff₀ (by positivity)]
  nlinarith

/-- How wide an enclosure `N .. N + c e` over one `L .. L + e` squared is, for the ranges of the operands. -/
theorem enclosure_width_le {N L c e n : ℚ} (hL : 2 / 3 ≤ L) (he : 0 ≤ e) (hN0 : 0 ≤ N) (hN : N ≤ 1075)
    (hc : c ≤ 1075) (hn0 : 0 ≤ n) (hn : n ≤ 2 ^ 64) :
    (N + c * e) * n / (L * L) - N * n / ((L + e) * (L + e)) ≤ 2 ^ 78 * e := by
  have hinv : 1 / (L * L) ≤ 9 / 4 := by
    rw [div_le_iff₀ (by positivity)]
    nlinarith
  have hsquare : N * (1 / (L * L) - 1 / ((L + e) * (L + e))) ≤ 1075 * (8 * e) :=
    (mul_le_mul_of_nonneg_left (one_div_sq_sub_le hL he) hN0).trans (by gcongr)
  have hlog : c * e * (1 / (L * L)) ≤ 1075 * e * (9 / 4) := by gcongr
  calc (N + c * e) * n / (L * L) - N * n / ((L + e) * (L + e))
      = (N * (1 / (L * L) - 1 / ((L + e) * (L + e))) + c * e * (1 / (L * L))) * n := by ring
    _ ≤ (1075 * (8 * e) + 1075 * e * (9 / 4)) * 2 ^ 64 := by gcongr
    _ ≤ 2 ^ 78 * e := by linarith

/-- The first enclosure is narrower than `2^-200` for every population of 64 bits. -/
theorem sizeUpper_sub_sizeLower_lt (hn : n < 2 ^ 64) (h : errorRateLegal pb = true) :
    sizeUpper logTerms n pb - sizeLower logTerms n pb < 1 / 2 ^ 200 := by
  have hs : (errorRateShift pb : ℚ) ≤ 1074 := by exact_mod_cast errorRateShift_le pb
  unfold sizeUpper sizeLower
  rw [negLnUpper_eq, ln2Upper_eq]
  calc _ ≤ 2 ^ 78 * (1 / 2 ^ logTerms) :=
        enclosure_width_le (by linarith [ln2Lower_gt]) (by positivity) (negLnLower_pos (by decide) pb).le
          (negLnLower_le_1075 (by decide) h) (by linarith) (Nat.cast_nonneg n) (by exact_mod_cast hn.le)
    _ < 1 / 2 ^ 200 := by
      rw [mul_one_div, div_lt_div_iff₀ (by positivity) (by positivity), one_mul, ← pow_add]
      exact pow_lt_pow_right₀ one_lt_two (by decide)

/-- A value between two rationals less than 1 apart has the ceiling of one of them. -/
theorem ceil_eq_or_of_enclosed {x : ℝ} {lo hi : ℚ} (hlo : (lo : ℝ) ≤ x) (hhi : x ≤ hi) (hw : hi - lo < 1) :
    ⌈x⌉ = ⌈lo⌉ ∨ ⌈x⌉ = ⌈hi⌉ := by
  have h1 : ⌈lo⌉ ≤ ⌈x⌉ := by rw [← Rat.ceil_cast (α := ℝ)]; exact Int.ceil_mono hlo
  have h2 : ⌈x⌉ ≤ ⌈hi⌉ := by rw [← Rat.ceil_cast (α := ℝ)]; exact Int.ceil_mono hhi
  have h3 : ⌈hi⌉ ≤ ⌈lo⌉ + 1 := by
    rw [← Int.ceil_add_one]
    exact Int.ceil_mono (by linarith)
  omega

/-- Where no enclosure settles the ceiling, the real value is an integer, and less than 1 above the lower end. -/
theorem ceil_sizeLower_of_undecided (hn : n < 2 ^ 64) (h : errorRateLegal pb = true)
    (hnone : sizeSearch n pb (logTerms + 1) = none) : ⌈sizeLower logTerms n pb⌉ = ⌈realSize n pb⌉ := by
  have hint : ¬ realSize n pb < ⌈realSize n pb⌉ := fun hx => by
    obtain ⟨k, hk, hd⟩ := exists_sizeDecided h hx (logTerms + 1)
    exact sizeSearch_ne_none (k - (logTerms + 1)) (by rwa [Nat.add_sub_cancel' hk]) hnone
  have hlo := sizeLower_le logTerms (n := n) (by decide) h
  have hw : (sizeUpper logTerms n pb : ℝ) - sizeLower logTerms n pb < 1 := by
    exact_mod_cast (sizeUpper_sub_sizeLower_lt hn h).trans (by norm_num)
  rw [← Rat.ceil_cast (α := ℝ), Int.ceil_eq_iff]
  exact ⟨by linarith [le_sizeUpper logTerms (n := n) (by decide) h], hlo.trans (Int.le_ceil _)⟩

/-- R140: the size is the ceiling of the real value. -/
theorem exactSizeBits_eq (hn1 : 1 ≤ n) (hn : n < 2 ^ 64 ∨ sizeDecided logTerms n pb = true)
    (h : errorRateLegal pb = true) : (exactSizeBits n pb : ℤ) = ⌈realSize n pb⌉ := by
  have hnonneg : 0 ≤ ⌈realSize n pb⌉ := Int.ceil_nonneg (realSize_pos hn1 h).le
  unfold exactSizeBits
  split
  · next hd => rw [ceil_of_sizeDecided (by decide) h hd, Int.toNat_of_nonneg hnonneg]
  · next hd =>
    split
    · next size hs => rw [sizeSearch_some h (Nat.succ_pos _) hs, Int.toNat_of_nonneg hnonneg]
    · next hnone =>
      rw [rat_ceil_eq, ceil_sizeLower_of_undecided (hn.resolve_right hd) h hnone, Int.toNat_of_nonneg hnonneg]

/-- A legal pattern's value is its magnitude. -/
theorem binary64Value_of_mem {p : ℚ} (hv : binary64Value pb = some p) (h0 : 0 < p) (h1 : p < 1) :
    errorRateLegal pb = true ∧ p = binary64Magnitude pb := by
  refine ⟨(errorRateLegal_iff_value pb).mpr ⟨p, hv, h0, h1⟩, ?_⟩
  unfold binary64Value at hv
  split at hv
  · cases hv
  · split at hv
    · injection hv with hv
      linarith [binary64Magnitude_nonneg pb]
    · injection hv with hv
      exact hv.symm

/-- Settles O35. -/
theorem exactSizeIsRealCeiling : Obligations.ExactSizeIsRealCeiling := by
  unfold Obligations.ExactSizeIsRealCeiling
  intro n pb p hn1 hn hv h0 h1
  obtain ⟨h, rfl⟩ := binary64Value_of_mem hv h0 h1
  exact exactSizeBits_eq hn1 hn h

/-- Settles O36. -/
theorem sizeEnclosureIsTight : Obligations.SizeEnclosureIsTight := by
  unfold Obligations.SizeEnclosureIsTight
  intro n pb hn1 hn h
  have hlo := sizeLower_le logTerms (n := n) (by decide) h
  have hhi := le_sizeUpper logTerms (n := n) (by decide) h
  have hw := sizeUpper_sub_sizeLower_lt hn h
  refine ⟨hlo, hhi, hw, ?_⟩
  rw [sizeBits, exactSizeBits_eq hn1 (.inl hn) h]
  exact ceil_eq_or_of_enclosed hlo hhi (hw.trans (by norm_num))

end Sys2Proof.Machine
end

section
/-! ### The floor of R140: no multiple of ln(2) below `2^64` has an integer within the enclosure of ln(2)

Two neighbouring convergents of ln(2) enclose the enclosure, and a fraction between neighbours has a denominator of at
least the sum of theirs, here above `2^64`. -/

namespace Sys2Proof.Machine

/-- A fraction `j / m` within an enclosure between two neighbours `a / b` and `c / d` has `b + d <= m`. -/
theorem add_le_of_between_neighbours {a b c d m j : ℤ} {lo hi : ℚ} (hb : 0 < b) (hd : 0 < d)
    (hdet : b * c - a * d = 1) (hab : (a : ℚ) / b < lo) (hcd : hi < (c : ℚ) / d) (hm : 0 < m)
    (hlo : m * lo < j) (hhi : j ≤ m * hi) : b + d ≤ m := by
  have hbq : (0 : ℚ) < b := by exact_mod_cast hb
  have hdq : (0 : ℚ) < d := by exact_mod_cast hd
  have hmq : (0 : ℚ) < m := by exact_mod_cast hm
  have hleft : a * m < j * b := by
    have : (a : ℚ) * m < j * b := by
      rw [← div_lt_iff₀ hbq, mul_div_right_comm, mul_comm]
      exact (mul_lt_mul_of_pos_left hab hmq).trans hlo
    exact_mod_cast this
  have hright : j * d < c * m := by
    have : (j : ℚ) * d < c * m := by
      rw [← lt_div_iff₀ hdq, mul_div_right_comm, mul_comm]
      exact hhi.trans_lt (mul_lt_mul_of_pos_left hcd hmq)
    exact_mod_cast this
  calc b + d ≤ b * (c * m - j * d) + d * (j * b - a * m) :=
        add_le_add (le_mul_of_one_le_right hb.le (by omega)) (le_mul_of_one_le_right hd.le (by omega))
    _ = (b * c - a * d) * m := by ring
    _ = m := by rw [hdet, one_mul]

theorem convergent_lt_ln2Lower : 3052446177238342414 / 4403748962482230453 < ln2Lower logTerms := by
  decide +kernel

theorem ln2Upper_lt_convergent : ln2Upper logTerms < 56329360186853476865 / 81266088598021724246 := by
  decide +kernel

/-- No integer lies between `m` times the two ends of the enclosure of ln(2). -/
theorem mul_ln2Upper_lt {m : Nat} (hm : m < 2 ^ 64) {j : ℤ} (hlo : m * ln2Lower logTerms < j) :
    m * ln2Upper logTerms < j := by
  rcases Nat.eq_zero_or_pos m with rfl | hpos
  · simpa using hlo
  by_contra hhi
  have hle := add_le_of_between_neighbours (a := 3052446177238342414) (b := 4403748962482230453)
    (c := 56329360186853476865) (d := 81266088598021724246) (m := m) (by decide) (by decide) (by decide)
    convergent_lt_ln2Lower ln2Upper_lt_convergent (by omega) hlo (not_lt.mp hhi)
  omega

/-- R140: the count is the floor of the real value. -/
theorem exactHashCount_eq {m n : Nat} (hm : m < 2 ^ 64) (hn : 1 ≤ n) :
    (exactHashCount m n : ℤ) = ⌊(m : ℝ) * Real.log 2 / n⌋ := by
  have hnq : (0 : ℚ) < n := by exact_mod_cast hn
  have hnr : (0 : ℝ) < n := by exact_mod_cast hn
  have hL := ln2Lower_pos (k := logTerms) (by decide)
  have hnonneg : 0 ≤ ⌊(m : ℚ) * ln2Lower logTerms / n⌋ := Int.floor_nonneg.mpr (by positivity)
  rw [exactHashCount, show Rat.floor = Int.floor from rfl, Int.toNat_of_nonneg hnonneg]
  refine le_antisymm ?_ (Int.le_floor.mpr ?_)
  · rw [← Rat.floor_cast (α := ℝ)]
    push_cast
    have := ln2Lower_le logTerms
    gcongr
  · generalize hj : ⌊(m : ℝ) * Real.log 2 / n⌋ = j
    have hle : (j : ℝ) * n ≤ m * ln2Upper logTerms := by
      rw [← le_div_iff₀ hnr, ← hj]
      exact (Int.floor_le _).trans (by have := le_ln2Upper logTerms; gcongr)
    rw [le_div_iff₀ hnq]
    by_contra hlt
    have hcontra := mul_ln2Upper_lt hm (j := j * n) (by push_cast; exact not_le.mp hlt)
    push_cast at hcontra
    exact absurd hcontra (not_lt.mpr (by exact_mod_cast hle))

/-- Settles O37. -/
theorem exactHashCountIsRealFloor : Obligations.ExactHashCountIsRealFloor := by
  unfold Obligations.ExactHashCountIsRealFloor
  exact fun m n hm hn => exactHashCount_eq hm hn

end Sys2Proof.Machine
end

section
/-! ### The binary64 rounding is to nearest, ties to even (R143)

In units of the last place, `q` is an `x` with `2^52 <= x < 2^53`: a 53-bit value with the same or a larger exponent is
an integer there, and one with a smaller exponent lies below `2^52`. -/

namespace Sys2Proof.Machine

/-- The exponent the rounding works with does not fall short either. -/
theorem lt_twoPow_binaryExponent_add_one {q : ℚ} (hq : 0 < q) : q < twoPow (binaryExponent q + 1) := by
  unfold binaryExponent
  dsimp only
  split
  · next h => rwa [sub_add_cancel]
  · have hnum : (0 : ℤ) < q.num := Rat.num_pos.mpr hq
    have hn : q.num.natAbs < 2 ^ (Nat.log2 q.num.natAbs + 1) := Nat.lt_log2_self
    have hd : 2 ^ Nat.log2 q.den ≤ q.den := Nat.log2_self_le q.den_pos.ne'
    have hq' : q = (q.num.natAbs : ℚ) / q.den := by
      conv_lhs => rw [← Rat.num_div_den q]
      rw [← Int.cast_natCast q.num.natAbs, Int.natAbs_of_nonneg hnum.le]
    rw [twoPow_eq_zpow, sub_add_eq_add_sub, zpow_sub₀ two_ne_zero, zpow_natCast, ← Nat.cast_succ, zpow_natCast]
    conv_lhs => rw [hq']
    have hn' : (q.num.natAbs : ℚ) < 2 ^ (Nat.log2 q.num.natAbs + 1) := by exact_mod_cast hn
    have hd' : (2 : ℚ) ^ Nat.log2 q.den ≤ q.den := by exact_mod_cast hd
    exact div_lt_div₀ hn' hd' (by positivity) (by positivity)

/-- A tie goes to the even neighbour. -/
theorem roundHalfEven_even_of_tie {x : ℚ} (h : |(roundHalfEven x : ℚ) - x| = 1 / 2) : roundHalfEven x % 2 = 0 := by
  have h0 : (x.floor : ℚ) ≤ x := Int.floor_le x
  have h1 : x < x.floor + 1 := Int.lt_floor_add_one x
  unfold roundHalfEven at h ⊢
  dsimp only at h ⊢
  split_ifs at h ⊢ with hlow hhigh heven
  · rw [abs_of_nonpos (by linarith)] at h
    linarith
  · push_cast at h
    rw [abs_of_nonneg (by linarith)] at h
    linarith
  · exact heven
  · omega

/-- No integer is nearer to `x` than `roundHalfEven x`, and where another is as near, that one is even. -/
theorem roundHalfEven_nearest (x : ℚ) (z : ℤ) :
    |(roundHalfEven x : ℚ) - x| ≤ |z - x| ∧
    (|(roundHalfEven x : ℚ) - x| = |z - x| → z ≠ roundHalfEven x → roundHalfEven x % 2 = 0) := by
  have hhalf := abs_roundHalfEven_sub_le x
  by_cases hz : z = roundHalfEven x
  · exact ⟨by rw [hz], fun _ hne => absurd hz hne⟩
  have hapart : (1 : ℚ) ≤ |z - x| + |(roundHalfEven x : ℚ) - x| :=
    calc (1 : ℚ) ≤ |(z : ℚ) - roundHalfEven x| := by exact_mod_cast Int.one_le_abs (sub_ne_zero.mpr hz)
      _ ≤ |z - x| + |(roundHalfEven x : ℚ) - x| := by
        rw [abs_sub_comm (roundHalfEven x : ℚ) x]
        exact abs_sub_le _ _ _
  exact ⟨by linarith, fun htie _ => roundHalfEven_even_of_tie (by linarith)⟩

/-- A 53-bit value is a multiple of `2^g`, or lies below `2^52` of it. -/
theorem multiple_or_lt {N : Nat} (hN : N < 2 ^ 53) (e g : ℤ) :
    (∃ z : ℤ, (N : ℚ) * 2 ^ e = z * 2 ^ g) ∨ (N : ℚ) * 2 ^ e < 2 ^ 52 * 2 ^ g := by
  rcases le_or_gt g e with hle | hlt
  · obtain ⟨k, rfl⟩ := Int.le.dest hle
    refine .inl ⟨N * 2 ^ k, ?_⟩
    rw [zpow_add₀ two_ne_zero, zpow_natCast]
    push_cast
    ring
  · right
    calc (N : ℚ) * 2 ^ e < 2 ^ 53 * 2 ^ e := by gcongr; exact_mod_cast hN
      _ = 2 ^ 52 * 2 ^ (e + 1) := by rw [zpow_add_one₀ two_ne_zero]; ring
      _ ≤ 2 ^ 52 * 2 ^ g := by gcongr; exacts [one_le_two, hlt]

/-- Where `x` units of the last place round to `M` of them, no 53-bit value is nearer. -/
theorem roundHalfEven_mul_nearest {x : ℚ} (hx : 2 ^ 52 ≤ x) (g : ℤ) {N : Nat} (hN : N < 2 ^ 53) (e : ℤ) :
    |(roundHalfEven x : ℚ) * 2 ^ g - x * 2 ^ g| ≤ |(N : ℚ) * 2 ^ e - x * 2 ^ g| ∧
    (|(roundHalfEven x : ℚ) * 2 ^ g - x * 2 ^ g| = |(N : ℚ) * 2 ^ e - x * 2 ^ g| →
      (N : ℚ) * 2 ^ e ≠ roundHalfEven x * 2 ^ g → roundHalfEven x % 2 = 0) := by
  have hulp : (0 : ℚ) < 2 ^ g := by positivity
  have hscale : ∀ y : ℚ, |y * 2 ^ g - x * 2 ^ g| = |y - x| * 2 ^ g := fun y => by
    rw [← sub_mul, abs_mul, abs_of_pos hulp]
  rw [hscale]
  rcases multiple_or_lt hN e g with ⟨z, hz⟩ | hlt
  · obtain ⟨hle, heven⟩ := roundHalfEven_nearest x z
    rw [hz, hscale]
    refine ⟨by gcongr, fun htie hne => heven (mul_right_cancel₀ hulp.ne' htie) fun hzM => hne (by rw [hzM])⟩
  · have hnear := (roundHalfEven_nearest x (2 ^ 52)).1
    have hstrict : |(roundHalfEven x : ℚ) - x| * 2 ^ g < |(N : ℚ) * 2 ^ e - x * 2 ^ g| :=
      calc |(roundHalfEven x : ℚ) - x| * 2 ^ g ≤ |((2 ^ 52 : ℤ) : ℚ) - x| * 2 ^ g := by gcongr
        _ = x * 2 ^ g - 2 ^ 52 * 2 ^ g := by
          push_cast
          rw [abs_of_nonpos (by linarith)]
          ring
        _ < x * 2 ^ g - (N : ℚ) * 2 ^ e := by linarith
        _ ≤ |(N : ℚ) * 2 ^ e - x * 2 ^ g| := by rw [abs_sub_comm]; exact le_abs_self _
    exact ⟨hstrict.le, fun htie => absurd htie hstrict.ne⟩

/-- An `x` of `2^52 .. 2^53` rounds to a significand, or to `2^53`. -/
theorem roundHalfEven_range {x : ℚ} (hlo : 2 ^ 52 ≤ x) (hhi : x < 2 ^ 53) :
    2 ^ 52 ≤ roundHalfEven x ∧ roundHalfEven x ≤ 2 ^ 53 := by
  obtain ⟨h1, h2⟩ := abs_le.mp (abs_roundHalfEven_sub_le x)
  have hlow : (((2 : ℤ) ^ 52 - 1 : ℤ) : ℚ) < roundHalfEven x := by push_cast; linarith
  have hhigh : (roundHalfEven x : ℚ) < ((2 ^ 53 + 1 : ℤ) : ℚ) := by push_cast; linarith
  have hlow' := Int.cast_lt.mp hlow
  have hhigh' := Int.cast_lt.mp hhigh
  omega

/-- R143: the rounding answers the nearest binary64 value. -/
theorem nearestBinary64_roundBinary64 {q : ℚ} (hq : 0 < q) : NearestBinary64 q (roundBinary64 q) := by
  have hlow := twoPow_binaryExponent_le hq
  have hhigh := lt_twoPow_binaryExponent_add_one hq
  unfold roundBinary64
  dsimp only
  rw [twoPow_eq_zpow] at hlow hhigh ⊢
  generalize hg : binaryExponent q - 52 = g
  rw [show binaryExponent q = (52 : ℕ) + g by omega, zpow_add₀ two_ne_zero, zpow_natCast] at hlow
  rw [show binaryExponent q + 1 = (53 : ℕ) + g by omega, zpow_add₀ two_ne_zero, zpow_natCast] at hhigh
  have hulp : (0 : ℚ) < 2 ^ g := by positivity
  obtain ⟨x, rfl⟩ : ∃ x, q = x * 2 ^ g := ⟨q / 2 ^ g, (div_mul_cancel₀ _ hulp.ne').symm⟩
  rw [mul_div_cancel_right₀ _ hulp.ne']
  have hlo : 2 ^ 52 ≤ x := le_of_mul_le_mul_right hlow hulp
  have hhi : x < 2 ^ 53 := lt_of_mul_lt_mul_right hhigh hulp.le
  have hnear := fun N hN e => roundHalfEven_mul_nearest hlo g (N := N) hN e
  obtain ⟨hMlo, hMhi⟩ := roundHalfEven_range hlo hhi
  generalize roundHalfEven x = M at hnear hMlo hMhi ⊢
  rcases hMhi.eq_or_lt with rfl | hMlt
  · refine ⟨2 ^ 52, g + 1, ?_, le_rfl, by decide, fun N e hN => ⟨(hnear N hN e).1, fun _ _ => by decide⟩⟩
    rw [zpow_add_one₀ two_ne_zero]
    push_cast
    ring
  · lift M to ℕ using by omega
    exact ⟨M, g, by rw [Int.cast_natCast], by omega, by omega, fun N e hN =>
      ⟨(hnear N hN e).1, fun htie hne => by have := (hnear N hN e).2 htie hne; omega⟩⟩

/-- Settles O54. -/
theorem roundingIsToNearestEven : Obligations.RoundingIsToNearestEven := by
  unfold Obligations.RoundingIsToNearestEven
  exact fun q => nearestBinary64_roundBinary64

/-! ### The two binary64 forms -/

/-- On an error rate LN64 answers a negative number (log 5). -/
theorem binary64Value_ln64 {pb : Word} (h : errorRateLegal pb = true) :
    binary64Value (Config.ln64 pb) = some (-ln64Negated pb) := by
  have hne : pb ≠ 0x4000000000000000 := by rintro rfl; exact absurd h (by decide)
  have hc := clamp_mem (lo := 0x3C90000000000000) (hi := 0x4090000000000000) (by decide) (Config.ln64Raw pb)
  simp only [BitVec.reduceToNat] at hc
  have hln : Config.ln64 pb = 0x8000000000000000 |||
      Config.clamp 0x3C90000000000000 0x4090000000000000 (Config.ln64Raw pb) := if_neg hne
  have hfinite : exponentField (Config.ln64 pb) ≠ 2047 := by
    rw [hln, exponentField_or_sign, exponentField_eq]
    omega
  have hsign : (Config.ln64 pb).getLsbD 63 = true := by
    rw [hln, BitVec.getLsbD_or, show (0x8000000000000000 : Word).getLsbD 63 = true from rfl, Bool.true_or]
  rw [binary64Value_of_finite hfinite, if_pos hsign, neg_one_mul, ln64Negated]

/-- LN64(2.0) is positive (log 5). -/
theorem binary64Value_ln64_two : binary64Value (Config.ln64 0x4000000000000000) = some ln64Two := by
  have hc := clamp_mem (lo := 0x3FE0000000000000) (hi := 0x3FE8000000000000) (by decide)
    (Config.ln64Raw 0x4000000000000000)
  simp only [BitVec.reduceToNat] at hc
  have hsign : (Config.ln64 0x4000000000000000).getLsbD 63 = false := by
    rw [getLsbD_sign, Config.ln64, if_pos rfl]
    simp only [decide_eq_false_iff_not]
    omega
  have hfinite : exponentField (Config.ln64 0x4000000000000000) ≠ 2047 := by
    rw [exponentField_ln64_two]
    decide
  rw [binary64Value_of_finite hfinite, hsign, if_neg Bool.false_ne_true, one_mul, ln64Two]

/-- The ceiling of a value that is not negative, as the sizing unit takes it. -/
theorem ceil_toNat {q : ℚ} (hq : 0 ≤ q) : (q.ceil.toNat : ℤ) = ⌈q⌉ := by
  rw [rat_ceil_eq, Int.toNat_of_nonneg (Int.ceil_nonneg hq)]

theorem floor_toNat {q : ℚ} (hq : 0 ≤ q) : (q.floor.toNat : ℤ) = ⌊q⌋ :=
  Int.toNat_of_nonneg (Int.floor_nonneg.mpr hq)

theorem sizedHashCount_binary64 {mode : SizingMode} (hmode : mode ≠ .exact) (m n : Nat) :
    sizedHashCount mode m n = binary64HashCount ln64Two m n := by
  cases mode with
  | exact => exact absurd rfl hmode
  | binary64Recip | binary64Div => rfl

/-- Settles O55: every operation is a rounding of a positive value. -/
theorem binary64SizingForms : Obligations.Binary64SizingForms := by
  unfold Obligations.Binary64SizingForms
  intro n pb hn h
  have hnear := fun (q : ℚ) (hq : 0 < q) => nearestBinary64_roundBinary64 hq
  have hpos := fun (q : ℚ) (hq : 0 < q) => roundBinary64_pos hq
  have hln := ln64Negated_pos pb
  have hln2 := ln64Two_pos
  have hnq : (0 : ℚ) < n := by exact_mod_cast hn
  have hpop := hpos _ hnq
  have hproduct := hpos _ (mul_pos hln hpop)
  have hsquare := hpos _ (mul_pos hln2 hln2)
  have hrecip := hpos _ (one_div_pos.mpr hsquare)
  refine ⟨ln64Negated pb, ln64Two, _, _, _, binary64Value_ln64 h, hln, binary64Value_ln64_two, hln2, hnear _ hnq,
    hnear _ (mul_pos hln hpop), hnear _ (mul_pos hln2 hln2), ?_, ?_, fun mode m hmode hm => ?_⟩
  · exact ⟨_, _, hnear _ (one_div_pos.mpr hsquare), hnear _ (mul_pos hproduct hrecip),
      ceil_toNat (hpos _ (mul_pos hproduct hrecip)).le⟩
  · exact ⟨_, hnear _ (div_pos hproduct hsquare), ceil_toNat (hpos _ (div_pos hproduct hsquare)).le⟩
  · have hmq : (0 : ℚ) < m := by exact_mod_cast hm
    have hscaled := mul_pos (hpos _ hmq) hln2
    have hquotient := div_pos (hpos _ hscaled) hpop
    rw [sizedHashCount_binary64 hmode]
    exact ⟨_, _, _, hnear _ hmq, hnear _ hscaled, hnear _ hquotient, floor_toNat (hpos _ hquotient).le⟩

end Sys2Proof.Machine
end

section
/-! ### The obligations on BINIT and BSIZE (R141, R142, R144, R145, R149) -/

namespace Sys2Proof.Machine

variable {s : State}

/-- ln(2) is below 1, so a count is below its size. -/
theorem exactHashCount_lt_size {m n : Nat} (hm : 1 ≤ m) (hn : 1 ≤ n) : exactHashCount m n < m := by
  have hn' : (1 : ℚ) ≤ n := by exact_mod_cast hn
  have hm' : (0 : ℚ) < m := by exact_mod_cast hm
  refine floor_toNat_lt hm ?_
  rw [div_lt_iff₀ (by linarith)]
  exact mul_lt_mul_of_pos_left ((ln2Lower_lt_one logTerms).trans_le hn') hm'

/-- Settles O38. -/
theorem filterSizePositive : Obligations.FilterSizePositive := by
  unfold Obligations.FilterSizePositive
  intro n pb hn _ h
  exact ⟨fun mode => sizeBits_pos mode hn h, exactHashCount_lt_size (sizeBits_pos .exact hn h) hn⟩

/-- Settles O39. -/
theorem hashCountFitsRegister : Obligations.HashCountFitsRegister := by
  unfold Obligations.HashCountFitsRegister
  exact fun mode m n hm hn _ => sizedHashCount_lt mode hm hn

/-- Where R141 finds a fault BINIT and BSIZE enter it, in every mode. -/
theorem exec_of_sizingFault {i : Instr} (hi : i = .binit ∨ i = .bsize) (he : s.err = false) {f : FaultCode}
    (hf : sizingFault s = some f) : exec i s = .next (raiseFault f i.opcode s) := by
  rcases hi with rfl | rfl <;> exact exec_of_fault _ he rfl (by rw [ruleFault, hf]; rfl)

theorem exec_of_zero_population {i : Instr} (hi : i = .binit ∨ i = .bsize) (he : s.err = false)
    (h0 : s.arg0.toNat = 0) : exec i s = .next (raiseFault .population i.opcode s) :=
  exec_of_sizingFault hi he (sizingFault_of_zero h0)

theorem exec_of_illegalErrorRate {i : Instr} (hi : i = .binit ∨ i = .bsize) (he : s.err = false)
    (hn : 1 ≤ s.arg0.toNat) (hp : ¬(1 ≤ s.arg1.toNat ∧ s.arg1.toNat ≤ 0x3FEFFFFFFFFFFFFF)) :
    exec i s = .next (raiseFault .errorRate i.opcode s) :=
  exec_of_sizingFault hi he (sizingFault_of_illegal hn (by rwa [← errorRateLegal_iff, Bool.not_eq_true] at hp))

theorem exec_binit (he : s.err = false) (hn : 1 ≤ s.arg0.toNat) (hp : errorRateLegal s.arg1 = true)
    (hfit : filterSize s ≤ s.params.maxCapacityBits.toNat) :
    exec .binit s = .next (ruleEffect .binit s) :=
  exec_of_no_fault .binit he rfl (by rw [ruleFault, sizingFault_of_legal hn hp, if_neg hfit.not_gt]; rfl)

theorem exec_binit_of_size (he : s.err = false) (hn : 1 ≤ s.arg0.toNat) (hp : errorRateLegal s.arg1 = true)
    (hbig : s.params.maxCapacityBits.toNat < filterSize s) :
    exec .binit s = .next (raiseFault .size 0x11 s) :=
  exec_of_fault .binit he rfl (by rw [ruleFault, sizingFault_of_legal hn hp, if_pos hbig]; rfl)

theorem exec_bsize (he : s.err = false) (hn : 1 ≤ s.arg0.toNat) (hp : errorRateLegal s.arg1 = true)
    (hfit : filterSize s ≤ 2 ^ 64 - 1) : exec .bsize s = .next (ruleEffect .bsize s) :=
  exec_of_no_fault .bsize he rfl (by rw [ruleFault, sizingFault_of_legal hn hp, if_neg hfit.not_gt]; rfl)

theorem exec_bsize_of_size (he : s.err = false) (hn : 1 ≤ s.arg0.toNat) (hp : errorRateLegal s.arg1 = true)
    (hbig : 2 ^ 64 - 1 < filterSize s) : exec .bsize s = .next (raiseFault .size 0x14 s) :=
  exec_of_fault .bsize he rfl (by rw [ruleFault, sizingFault_of_legal hn hp, if_pos hbig]; rfl)

/-- The two registers hold the whole of a size of 64 bits and of its count (R144). -/
theorem toNat_size_and_count (hn : 1 ≤ s.arg0.toNat) (hfit : filterSize s < 2 ^ 64) :
    (BitVec.ofNat 64 (filterSize s)).toNat = filterSize s ∧
    (BitVec.ofNat 64 (filterHashCount s)).toNat = filterHashCount s :=
  ⟨Nat.mod_eq_of_lt hfit, Nat.mod_eq_of_lt (sizedHashCount_lt _ hfit hn)⟩

/-- Settles O40. -/
theorem binitResult : Obligations.BinitResult := by
  unfold Obligations.BinitResult
  refine ⟨decode_encode .binit, fun s he => ⟨fun hn hp1 hp2 hfit => ?_, exec_of_zero_population (.inl rfl) he,
    exec_of_illegalErrorRate (.inl rfl) he,
    fun hn hp1 hp2 => exec_binit_of_size he hn ((errorRateLegal_iff _).mpr ⟨hp1, hp2⟩)⟩⟩
  obtain ⟨hcap, hk⟩ := toNat_size_and_count hn (lt_of_le_of_lt hfit s.params.maxCapacityBits.isLt)
  refine ⟨_, _, _, exec_binit he hn ((errorRateLegal_iff _).mpr ⟨hp1, hp2⟩) hfit, hcap, ?_, fun i => ?_⟩
  · rw [hk, hcap]
    rfl
  · rw [hcap, bit_zeroBelow]
    simp only [div_lt_bytesInUse_iff]

/-- Settles O41. -/
theorem bsizeResult : Obligations.BsizeResult := by
  unfold Obligations.BsizeResult
  refine ⟨decode_encode .bsize, fun s he => ⟨fun hn hp1 hp2 hfit => ?_, exec_of_zero_population (.inr rfl) he,
    exec_of_illegalErrorRate (.inr rfl) he,
    fun hn hp1 hp2 => exec_bsize_of_size he hn ((errorRateLegal_iff _).mpr ⟨hp1, hp2⟩)⟩⟩
  obtain ⟨hm, hk⟩ := toNat_size_and_count hn (Nat.lt_of_le_pred (by decide) hfit)
  refine ⟨_, _, exec_bsize he hn ((errorRateLegal_iff _).mpr ⟨hp1, hp2⟩) hfit, hm, ?_⟩
  rw [hk, hm]
  rfl

/-- Settles O56: the size and the count BSIZE answers are R140's (`exactSizeBits_eq`, `exactHashCount_eq`). -/
theorem bsizeExactFormulas : Obligations.BsizeExactFormulas := by
  unfold Obligations.BsizeExactFormulas
  intro s p he hmode hn hv h0 h1
  obtain ⟨hp, rfl⟩ := binary64Value_of_mem hv h0 h1
  have hsize : (filterSize s : ℤ) = ⌈realSize s.arg0.toNat s.arg1⌉ := by
    rw [filterSize, hmode]
    exact exactSizeBits_eq hn (.inl s.arg0.isLt) hp
  rw [← realSize, ← hsize]
  refine ⟨fun hfit => ?_, fun hbig => exec_bsize_of_size he hn hp (by omega)⟩
  have hlt : filterSize s < 2 ^ 64 := by omega
  obtain ⟨hm, hk⟩ := toNat_size_and_count hn hlt
  refine ⟨_, _, exec_bsize he hn hp (by omega), by rw [hm], ?_⟩
  rw [hk, hm, filterHashCount, hmode]
  exact exactHashCount_eq hlt hn

end Sys2Proof.Machine
end

section
/-! ### The command prologue and the seven faults (60_exceptions.md R180 to R186)

A command's own checks raise neither ILLEGAL nor MODE (`ruleFault_ne`), so the code of a fault tells whether the
prologue raised it or the command. -/

namespace Sys2Proof.Machine

variable {s t : State}

/-- The opcode a fault records is the low byte of the word written to CMD (R181). -/
theorem opField_of_decode {c : Word} {i : Instr} (hd : decode c = .ok i) : opField c = i.opcode := by
  obtain ⟨-, hop, -⟩ := legalWord i
  rw [eq_encode_of_decode hd, hop]

/-- While ERR = 1 every word written to CMD is dropped, legal or not (R180, R186). -/
theorem commandWrite_of_err (he : s.err = true) (c : Word) : commandWrite c s = .next s := by
  cases hd : decode c with
  | ok i => rw [commandWrite_of_decode hd, exec_of_err he]
  | error e => rw [commandWrite_of_error hd, illegalCommand_of_err he]

/-! ### Which faults the commands' own checks raise -/

theorem code_eq_mode_iff {f : FaultCode} : f.code = 2 ↔ f = .mode := by cases f <;> decide

theorem eq_of_ite_some {P : Prop} [Decidable P] {f g : FaultCode} (h : (if P then some f else none) = some g) :
    g = f :=
  (Option.some.inj (Option.ite_none_right_eq_some.mp h).2).symm

theorem indexFault_eq_some {f : FaultCode} (h : indexFault s = some f) : f = .index := eq_of_ite_some h

theorem fieldFault_eq_some {f : FaultCode} (h : fieldFault s = some f) : f = .length ∨ f = .index := by
  unfold fieldFault at h
  split at h
  · exact .inl (Option.some.inj h).symm
  · exact .inr (eq_of_ite_some h)

theorem sizingFault_eq_some {f : FaultCode} (h : sizingFault s = some f) : f = .population ∨ f = .errorRate := by
  unfold sizingFault at h
  split at h
  · exact .inl (Option.some.inj h).symm
  · exact .inr (Option.some.inj (Option.ite_none_left_eq_some.mp h).2).symm

/-- ILLEGAL and MODE are the prologue's own faults: no command's rule raises them. -/
theorem ruleFault_ne {i : Instr} {f : FaultCode} (h : ruleFault i s = some f) : f ≠ .illegal ∧ f ≠ .mode := by
  cases i with
  | vinit => obtain rfl := eq_of_ite_some h; decide
  | vget | vset => obtain rfl := indexFault_eq_some h; decide
  | vgetf | vsetf => rcases fieldFault_eq_some h with rfl | rfl <;> decide
  | binit | bsize =>
    rcases Option.or_eq_some_iff.mp h with hsizing | ⟨_, hsize⟩
    · rcases sizingFault_eq_some hsizing with rfl | rfl <;> decide
    · obtain rfl := eq_of_ite_some hsize; decide
  | vfill | bins | blook => cases h

theorem ruleEffect_err (i : Instr) (s : State) : (ruleEffect i s).err = s.err := by cases i <;> rfl

/-- A command that faults enters its fault and does nothing else (R182); the fault is MODE where MODE forbids the
command (R183), and otherwise one of the command's own. -/
theorem eq_raiseFault_of_exec {i : Instr} (h : exec i s = .next t) (hs : s.err = false) (ht : t.err = true) :
    ∃ f, t = raiseFault f i.opcode s ∧ f ≠ .illegal ∧ (f = .mode ↔ legalIn i s.mode = false) := by
  rcases exec_cases_of_checks h with ⟨he, _⟩ | ⟨_, hl, rfl⟩ | ⟨_, hl, f, hf, rfl⟩ | ⟨_, _, _, rfl⟩
  · simp [hs] at he
  · exact ⟨.mode, rfl, by decide, by simp [hl]⟩
  · obtain ⟨hillegal, hmode⟩ := ruleFault_ne hf
    exact ⟨f, rfl, hillegal, by simp [hmode, hl]⟩
  · rw [ruleEffect_err, hs] at ht
    cases ht

theorem exec_modeFault_iff (i : Instr) (hs : s.err = false) :
    (∃ t, exec i s = .next t ∧ t.err = true ∧ t.errCode = 2) ↔ legalIn i s.mode = false := by
  constructor
  · rintro ⟨t, hx, ht, hcode⟩
    obtain ⟨f, rfl, -, hmode⟩ := eq_raiseFault_of_exec hx hs ht
    exact hmode.mp (code_eq_mode_iff.mp hcode)
  · exact fun hl => ⟨_, exec_of_illegalMode hs hl, rfl, rfl⟩

/-! ### The clearing of a fault (R185) -/

theorem clearsFault_iff {a : HostAccess} {p : Params} :
    a.clearsFault p = true ↔ a = .reset ∨ ∃ v, a.registerWrite p = some (3, v) ∧ v.getLsbD 0 = true := by
  constructor
  · intro h
    rw [HostAccess.clearsFault, Bool.or_eq_true, beq_iff_eq] at h
    refine h.imp_right fun hw => ?_
    split at hw
    · next v hv => exact ⟨v, hv, hw⟩
    · cases hw
  · rintro (rfl | ⟨v, hw, hv⟩)
    · exact clearsFault_reset p
    · exact clearsFault_of_registerWrite hw hv

/-- An access that clears the fault does so, by number and on the bus alike. -/
theorem err_of_clearsFault {a : HostAccess} (h : perform a s = .next t) (ha : a.clearsFault s.params = true) :
    t.err = false := by
  rcases clearsFault_iff.mp ha with rfl | ⟨v, hw, hv⟩
  · injection h with h
    exact h ▸ resetBlock_err s
  · have hclear : perform a s = .next (clearFault s) :=
      (perform_of_registerWrite hw).trans (congrArg _ (statusWrite_of_set hv s))
    rw [hclear] at h
    injection h with h
    exact h ▸ clearFault_err s

/-- A recorded fault is gone only after an access that clears it: a command keeps it (`exec_record`), and nothing else
writes it. -/
theorem clearsFault_of_err {a : HostAccess} (h : perform a s = .next t) (hs : s.err = true) (ht : t.err = false) :
    a.clearsFault s.params = true := by
  cases effect_of_perform h with
  | reset ha => exact ha ▸ clearsFault_reset _
  | cleared hc => exact hc
  | command i t _ hx =>
    rcases exec_record hx with hsame | ⟨_, ht'⟩
    · simp [hsame.err, hs] at ht
    · simp [ht'] at ht
  | illegal => cases ht
  | reply | arg0 | arg1 | arg2 | ignored => simp [hs] at ht

/-- A fault that an access leaves recorded is the one recorded before (R186). -/
theorem record_kept_of_err {a : HostAccess} (h : perform a s = .next t) (hs : s.err = true) (ht : t.err = true) :
    t.errCode = s.errCode ∧ t.errOp = s.errOp := by
  by_contra hne
  rcases record_of_perform h (not_and_or.mp hne) with ⟨hs', _⟩ | hc
  · simp [hs] at hs'
  · simp [err_of_clearsFault h hc] at ht

/-! ### The obligations on the prologue and faults -/

/-- Settles O16: the four lines of the prologue, each by the law of its case; a MODE fault's opcode is the word's low
byte. -/
theorem commandPrologue : Obligations.CommandPrologue := by
  unfold Obligations.CommandPrologue
  refine fun c s => ⟨fun he => commandWrite_of_err he c, fun he e hd => ?_, fun he i hd hl => ?_,
    fun he i hd hl => commandWrite_of_decode hd s⟩
  · exact (commandWrite_of_error hd s).trans (congrArg _ (illegalCommand_of_no_err he c))
  · rw [← opField, opField_of_decode hd]
    exact (commandWrite_of_decode hd s).trans (exec_of_illegalMode he hl)

/-- Settles O17: the MODE fault is entered exactly where `legalIn` is false (`exec_modeFault_iff`), and `legalIn` is
R183's table. -/
theorem modeLegality : Obligations.ModeLegality := by
  unfold Obligations.ModeLegality
  intro i s he
  rw [exec_modeFault_iff i he]
  cases i with
  | vinit | binit | bsize => simp [legalIn]
  | vget | vset | vgetf | vsetf | vfill => exact beq_eq_false_iff_ne.symm
  | bins | blook => exact beq_eq_false_iff_ne.symm

/-- Settles O18: a legal word's fault is its command's (`eq_raiseFault_of_exec`), an illegal word's is ILLEGAL. -/
theorem faultsArePrecise : Obligations.FaultsArePrecise := by
  unfold Obligations.FaultsArePrecise
  intro c s t hs h ht
  cases hd : decode c with
  | ok i =>
    obtain ⟨f, rfl, hne, -⟩ := eq_raiseFault_of_exec ((commandWrite_of_decode hd s).symm.trans h) hs ht
    exact ⟨f, by rw [← opField_of_decode hd]; rfl, by simp [hne]⟩
  | error e =>
    have hfault := (commandWrite_of_error hd s).symm.trans h
    rw [illegalCommand_of_no_err hs] at hfault
    injection hfault with hfault
    exact ⟨.illegal, hfault.symm, by simp⟩

/-- Settles O19. -/
theorem faultClearedOnlyByHost : Obligations.FaultClearedOnlyByHost := by
  unfold Obligations.FaultClearedOnlyByHost
  exact fun a s t hs h => ⟨clearsFault_of_err h hs, err_of_clearsFault h⟩

/-- Settles O20. -/
theorem faultsDoNotNest : Obligations.FaultsDoNotNest := by
  unfold Obligations.FaultsDoNotNest
  exact fun s hs => ⟨commandWrite_of_err hs, fun v hv => congrArg _ (statusWrite_of_clear hv s),
    fun v => ⟨rfl, rfl, rfl⟩, fun r => hostRead_number r s, fun a t h ht => record_kept_of_err h hs ht⟩

end Sys2Proof.Machine
end

section
/-! ### Reset, and the fresh structure (70_reset_and_hazards.md R210, R214) -/

namespace Sys2Proof.Machine

/-- Zeroing the blocks that a structure of `cap` bits uses clears each of its bits. -/
theorem bit_zeroBelow_bytesInUse (m : Memory) (p : Params) {cap i : Nat} (h : i < cap) :
    (m.zeroBelow (bytesInUse p cap)).bit i = false := by
  rw [bit_zeroBelow, if_pos (div_lt_bytesInUse p h)]

/-- Settles O29: a construction that did not fault ran its rule, which zeroes the blocks of the CAPACITY it sets; the
size BINIT computes is the CAPACITY because it fits the register (`toNat_filterSize`). -/
theorem freshStructureIsZero : Obligations.FreshStructureIsZero := by
  unfold Obligations.FreshStructureIsZero
  intro i s t hi hs h ht j hj
  have hr := ruleOf_ok_of_exec h hs ht
  rcases hi with rfl | rfl
  · obtain ⟨-, rfl⟩ := vinitRule_ok hr
    exact bit_zeroBelow_bytesInUse s.store s.params hj
  · obtain ⟨-, -, hfit, rfl⟩ := binitRule_ok hr
    exact bit_zeroBelow_bytesInUse s.store s.params (toNat_filterSize hfit ▸ hj)

/-- Settles O2: the next state is `resetBlock s`, whose STATUS is that of the reset values. -/
theorem resetInput : Obligations.ResetInput := by
  unfold Obligations.ResetInput
  intro s
  have hstatus : readReg .status (resetBlock s) = 0 := statusWord_resetWith s.params
  exact ⟨resetBlock s, rfl, hstatus, rfl, rfl, rfl, rfl, rfl, rfl, rfl, rfl, rfl, rfl, rfl, rfl, rfl, rfl, fun i => rfl⟩

end Sys2Proof.Machine
end
